-- ==== Sys2Proof/Config.lean ====
section
/-! DEFINITION. The implementation parameters of the core (spec/00_scope.md R5). The spec fixes each
of them; INIT_MEM and INPUT are arguments (Machine/Environment.lean), WORD_REPR is open and
observable by nothing (notes/assumptions/7.md). The model has no free value. -/

namespace Sys2Proof

/-- MEM_SIZE (R5): the number of words of memory. -/
@[simp] abbrev Config.memSize : Nat := 100

/-- WORD_MIN (R5): the smallest value a Word holds. -/
@[simp] abbrev Config.wordMin : Int := -9999

/-- WORD_MAX (R5): the largest value a Word holds. -/
@[simp] abbrev Config.wordMax : Int := 9999

/-- RADIX (R5): the divisor that splits a word into opcode and operand. -/
@[simp] abbrev Config.radix : Int := 100

/-- ADDR_MAX (R5): the largest address and the largest instruction-pointer value. -/
@[simp] abbrev Config.addrMax : Nat := 99

/-- OPSET (R5): the recognised opcodes. -/
@[simp] abbrev Config.opset : List Int := [10, 11, 20, 21, 30, 31, 32, 33, 40, 41, 42, 43]

/-- What a memory word holds that the loader has not filled and nothing has written
(spec/20_memory.md R45, spec/70_reset_and_hazards.md R182, R183: "unfilled locations default to 0";
notes/assumptions/6.md). -/
@[simp] abbrev Config.defaultFill : Int := 0

end Sys2Proof
end

