-- ==== Sys2Proof/Word.lean ====
section
/-! DEFINITION. The Word and the address (spec/10_state.md R11, R13; spec/20_memory.md R31).

"A model represents a Word as an integer together with the range bound" (R11): in this model a Word is
an `Int`, and its range is `InRange`, which every step keeps as an invariant (R24;
notes/assumptions/7.md). -/

namespace Sys2Proof

/-- `InRange(v)` of spec/00_scope.md R8: `WORD_MIN <= v <= WORD_MAX`. -/
abbrev InRange (v : Int) : Prop := Config.wordMin ≤ v ∧ v ≤ Config.wordMax

/-- An address is an integer from 0 to 99, that is below MEM_SIZE (spec/20_memory.md R31; for `IP`,
spec/10_state.md R14: "a model may therefore type `IP` as a natural number below 100"). -/
abbrev Address : Type := Fin 100

end Sys2Proof
end

