-- ==== Sys2Proof/Syntax.lean ====
section
/-! DEFINITION. The twelve instructions, one constructor per row of spec/opcode_table.json
(spec/30_encoding.md R53). -/

namespace Sys2Proof

/-- An instruction as the decoder forms it: the operation the opcode selects and the operand, "a
plain integer ... used exactly as formed" (R52). Which operands are legal is `Instr.WellFormed`.
HALT carries its operand too: the words 4300 to 4399 are a hundred different words (R57). -/
inductive Instr where
  /-- READ, opcode 10 (spec/41_io.md R90). -/
  | read (operand : Int)
  /-- WRITE, opcode 11 (spec/41_io.md R91). -/
  | write (operand : Int)
  /-- LOAD, opcode 20 (spec/42_load_store.md R100). -/
  | load (operand : Int)
  /-- STORE, opcode 21 (spec/42_load_store.md R101). -/
  | store (operand : Int)
  /-- ADD, opcode 30 (spec/43_arithmetic.md R111). -/
  | add (operand : Int)
  /-- SUBTRACT, opcode 31 (spec/43_arithmetic.md R112). -/
  | subtract (operand : Int)
  /-- DIVIDE, opcode 32 (spec/43_arithmetic.md R113). -/
  | divide (operand : Int)
  /-- MULTIPLY, opcode 33 (spec/43_arithmetic.md R114). -/
  | multiply (operand : Int)
  /-- BRANCH, opcode 40 (spec/44_control.md R130). -/
  | branch (operand : Int)
  /-- BRANCHNEG, opcode 41 (spec/44_control.md R131). -/
  | branchneg (operand : Int)
  /-- BRANCHZERO, opcode 42 (spec/44_control.md R132). -/
  | branchzero (operand : Int)
  /-- HALT, opcode 43 (spec/44_control.md R133). -/
  | halt (operand : Int)
  deriving DecidableEq, Repr

/-- The operand field of an instruction (spec/30_encoding.md R51). -/
def Instr.operand : Instr → Int
  | .read x => x
  | .write x => x
  | .load x => x
  | .store x => x
  | .add x => x
  | .subtract x => x
  | .divide x => x
  | .multiply x => x
  | .branch x => x
  | .branchneg x => x
  | .branchzero x => x
  | .halt x => x

end Sys2Proof
end

