-- ==== Sys2Proof/WellFormed.lean ====
section
/-! DEFINITION. Which instructions are legal as syntax: the operand is 00 to 99, every value of it
(spec/30_encoding.md R51, R58). -/

namespace Sys2Proof

/-- The operand is no negative number: a negative word is not an instruction (R55). -/
abbrev Instr.operandNonneg (i : Instr) : Prop := 0 ≤ i.operand

/-- The operand has two decimal digits (R51). -/
abbrev Instr.operandTwoDigits (i : Instr) : Prop := i.operand ≤ Config.addrMax

/-- A legal instruction: its operand is in 0 to 99 (R51, R58). -/
abbrev Instr.WellFormed (i : Instr) : Prop := i.operandNonneg ∧ i.operandTwoDigits

end Sys2Proof
end

