-- ==== Sys2Proof/Decode.lean ====
section
/-! DEFINITION. The decoder (spec/30_encoding.md R50 to R59), the encoder (R60), the opcode table's
bit rendering of a Word (R63) and the written form of an instruction (R62). -/

namespace Sys2Proof

/-- Opcode extraction: the two leading digits, `w tdiv 100` (R52, R7). -/
def opcodeOf (w : Int) : Int := w.tdiv Config.radix

/-- Operand formation: the two trailing digits, `w tmod 100` (R52, R7). -/
def operandOf (w : Int) : Int := w.tmod Config.radix

/-- Why the decoder rejects a Word. -/
inductive IllegalWord where
  /-- The opcode is not in OPSET (R55). The cycle raises `InvalidOpcode`. -/
  | unrecognisedOpcode (opcode : Int)
  deriving DecidableEq, Repr

/-- The opcode map (R53): which operation the opcode selects; the operand plays no part in it. Any
other opcode is rejected by name (R55, R56). -/
def recognise (opcode operand : Int) : Except IllegalWord Instr :=
  if opcode = 10 then .ok (.read operand)
  else if opcode = 11 then .ok (.write operand)
  else if opcode = 20 then .ok (.load operand)
  else if opcode = 21 then .ok (.store operand)
  else if opcode = 30 then .ok (.add operand)
  else if opcode = 31 then .ok (.subtract operand)
  else if opcode = 32 then .ok (.divide operand)
  else if opcode = 33 then .ok (.multiply operand)
  else if opcode = 40 then .ok (.branch operand)
  else if opcode = 41 then .ok (.branchneg operand)
  else if opcode = 42 then .ok (.branchzero operand)
  else if opcode = 43 then .ok (.halt operand)
  else .error (.unrecognisedOpcode opcode)

/-- Decode, total on every Word (R52, R55, R83 of spec/40_cycle.md): from the fetched Word "and from
nothing else". -/
def decode (w : Int) : Except IllegalWord Instr := recognise (opcodeOf w) (operandOf w)

/-- The opcode of an instruction (R53). -/
def Instr.opcode : Instr → Int
  | .read _ => 10
  | .write _ => 11
  | .load _ => 20
  | .store _ => 21
  | .add _ => 30
  | .subtract _ => 31
  | .divide _ => 32
  | .multiply _ => 33
  | .branch _ => 40
  | .branchneg _ => 41
  | .branchzero _ => 42
  | .halt _ => 43

/-- `Encode(M, aa) = opcode(M) * 100 + aa` (R51, R60). -/
def encode (i : Instr) : Int := i.opcode * Config.radix + i.operand

/-- The Word that a pattern of bits of spec/opcode_table.json stands for (R63): bit 16 the sign, then
four decimal digits of four bits each. `none` for a pattern that is no Word: a digit above 1001,
minus zero, or a bit above bit 16 (notes/assumptions/10.md). -/
def wordOfTableBits (nbits w : Nat) : Option Int :=
  let bits := w % 2 ^ nbits
  let sign := bits / 65536
  let d3 := bits / 4096 % 16
  let d2 := bits / 256 % 16
  let d1 := bits / 16 % 16
  let d0 := bits % 16
  let magnitude : Nat := 1000 * d3 + 100 * d2 + 10 * d1 + d0
  if 9 < d3 ∨ 9 < d2 ∨ 9 < d1 ∨ 9 < d0 then none
  else if sign = 0 then some (magnitude : Int)
  else if sign = 1 ∧ magnitude ≠ 0 then some (-(magnitude : Int))
  else none

/-- The instruction the decoder reads from an instruction's bits, numbered as spec/opcode_table.json
numbers them (R63); `none` where the pattern is no Word or the decoder rejects the Word. -/
def decodeTableWord (nbits w : Nat) : Option Instr :=
  match wordOfTableBits nbits w with
  | none => none
  | some v => (decode v).toOption

/-- The instruction's name in capitals (R53, R62). -/
def Instr.mnemonic : Instr → String
  | .read _ => "READ"
  | .write _ => "WRITE"
  | .load _ => "LOAD"
  | .store _ => "STORE"
  | .add _ => "ADD"
  | .subtract _ => "SUBTRACT"
  | .divide _ => "DIVIDE"
  | .multiply _ => "MULTIPLY"
  | .branch _ => "BRANCH"
  | .branchneg _ => "BRANCHNEG"
  | .branchzero _ => "BRANCHZERO"
  | .halt _ => "HALT"

/-- A number of 0 to 99 as two decimal digits (R62). -/
def twoDigits (n : Nat) : String := (if n < 10 then "0" else "") ++ toString n

/-- `MNEMONIC aa`; `HALT` alone stands for `HALT 00` (R62). -/
def Instr.listing (i : Instr) : String :=
  if i = .halt 0 then "HALT" else i.mnemonic ++ " " ++ twoDigits i.operand.toNat

/-- A word that is meant as data: `DATA n`, n a signed decimal integer (R62). -/
def dataListing (w : Int) : String := "DATA " ++ toString w

/-- One line of a listing: the two-digit address, a colon, the text (R62). -/
def listingLine (a : Address) (text : String) : String := twoDigits a.val ++ ": " ++ text

end Sys2Proof
end

