-- ==== Sys2Proof/Machine/State.lean ====
section
/-! DEFINITION. The state of the machine (spec/10_state.md), as plain data, and the machine right
after reset (R22). -/

namespace Sys2Proof.Machine

/-- The kinds of fault (spec/60_exceptions.md R150), the value `Fault(k)` of STATUS holds. Taking one
is a NEXT state with STATUS = Fault(k) (R155), so no step answers `Host.Outcome.fault` at all
(notes/assumptions/1.md). Safe: each is the fault the spec names, with the state the spec gives. -/
inductive Fault where
  /-- Raised by DIVIDE when the divisor is 0 (R151). Safe: the spec's own fault. -/
  | divideByZero
  /-- Raised by decode for a Word whose opcode is not recognised (R152). Safe: the spec's own fault. -/
  | invalidOpcode
  /-- Raised by the sequencer's advance from address 99, and by the address decoder for an operand
  outside 0 to 99, which no fetched Word has (R153). Safe: the spec's own fault. -/
  | outOfRangeAddress
  /-- Raised by ADD, SUBTRACT and MULTIPLY when the exact result is out of range (R154). Safe: the
  spec's own fault, by its decision D1. -/
  | overflow
  deriving DecidableEq, Repr

/-- Why an instruction would have no meaning. -/
inductive Refusal where
  /-- Raised by an arm of `exec` for an instruction without a meaning. Safe. No arm raises it: all
  twelve instructions have their meaning. -/
  | notModelled (mnemonic : String)
  deriving DecidableEq, Repr

/-- STATUS (spec/10_state.md R15). -/
inductive Status where
  /-- The run goes on. -/
  | running
  /-- A HALT was reached: the one successful end (spec/44_control.md R133). -/
  | halted
  /-- The run ended in a fault of this kind (spec/60_exceptions.md R155). -/
  | fault (kind : Fault)
  deriving DecidableEq, Repr

/-- MEM (R16): the words that differ from `Config.defaultFill`, as pairs of address and Word with
addresses strictly rising (notes/assumptions/6.md). Its reads and writes are in Machine/Ops.lean. -/
abbrev Memory : Type := List (Nat × Int)

/-- The canonical form: strictly rising addresses, all of them of the address space 0 to 99
(spec/20_memory.md R30), no entry equal to what an unlisted address reads as. -/
abbrev Memory.wf (m : Memory) : Prop :=
  m.Pairwise (fun c d => c.1 < d.1) ∧ ∀ c ∈ m, c.1 < Config.memSize ∧ c.2 ≠ Config.defaultFill

/-- The machine's state: the four elements of R10 and the two sequences of R21. -/
structure State where
  /-- MEM (R16). -/
  mem : Memory
  /-- ACC (R12). -/
  acc : Int
  /-- IP (R13, R14): the address of the next instruction to fetch. -/
  ip : Address
  /-- STATUS (R15). -/
  status : Status
  /-- INPUT (R21): the Words the input port has still to supply, the next one first. -/
  input : List Int
  /-- OUT (R21): the Words emitted so far, the earliest first. -/
  out : List Int
  deriving DecidableEq, Repr

/-- The machine right after reset with the launch parameters INIT_MEM and INPUT (R22;
spec/70_reset_and_hazards.md R181). -/
def State.launched (initMem : Memory) (input : List Int) : State :=
  { mem := initMem, acc := 0, ip := 0, status := .running, input := input, out := [] }

/-- The machine right after reset when nothing was loaded (all words 0, notes/assumptions/6.md) and
the collaborator supplies no Word (notes/assumptions/4.md). -/
def State.reset : State :=
  { mem := [], acc := 0, ip := 0, status := .running, input := [], out := [] }

end Sys2Proof.Machine
end

