-- ==== Sys2Proof/Machine/Ops.lean ====
section
/-! DEFINITION. The named operations over memory and registers: the primitives of spec/00_scope.md
R8, taking a fault (spec/60_exceptions.md R155), the one way out of it (R160), and the sequencer
(spec/40_cycle.md R73 to R75). -/

namespace Sys2Proof.Machine

/-- The Word at an address of the list form; an unlisted address reads as the default fill. -/
def Memory.read (m : Memory) (a : Address) : Int :=
  match m with
  | [] => Config.defaultFill
  | c :: rest => if c.1 = a.val then c.2 else Memory.read rest a

/-- Puts a cell before the first cell with a greater address. -/
def Memory.insertCell (c : Nat × Int) (m : Memory) : Memory :=
  match m with
  | [] => [c]
  | d :: rest => if c.1 < d.1 then c :: d :: rest else d :: Memory.insertCell c rest

/-- The memory without a cell for this address. -/
def Memory.erase (m : Memory) (a : Address) : Memory := m.filter (fun c => c.1 ≠ a.val)

/-- Sets one Word and keeps the canonical form: writing the default fill removes the entry. -/
def Memory.write (m : Memory) (a : Address) (v : Int) : Memory :=
  if v = Config.defaultFill then m.erase a else Memory.insertCell (a.val, v) (m.erase a)

/-- `MemRead(a, 1)` (spec/20_memory.md R34). -/
def readMem (a : Address) (s : State) : Int := s.mem.read a

/-- `MemWrite(a, 1, v)` (spec/20_memory.md R34): one word set, no other changed. -/
def writeMem (a : Address) (v : Int) (s : State) : State := { s with mem := s.mem.write a v }

/-- `ACC <- v` (spec/10_state.md R12). -/
def setAcc (v : Int) (s : State) : State := { s with acc := v }

/-- `IP <- target`, a taken branch: it does not also add 1 (spec/40_cycle.md R73, R74). -/
def jump (target : Address) (s : State) : State := { s with ip := target }

/-- `STATUS <- Halted`, the sequencer holding IP (spec/44_control.md R133). -/
def stopRun (s : State) : State := { s with status := .halted }

/-- `raise F`, taking a fault (spec/60_exceptions.md R155): STATUS <- Fault(F), and no other state
element is written. Nothing is saved and control goes nowhere. -/
def raise (kind : Fault) (s : State) : State := { s with status := .fault kind }

/-- The one way out of a terminal STATUS, the reset event (spec/60_exceptions.md R160,
spec/70_reset_and_hazards.md R181): ACC <- 0, IP <- 0, STATUS <- Running, OUT empty, INPUT what the
collaborator will supply in this run; no memory word is written. There is no return from a fault
(R159). -/
def resetEvent (input : List Int) (s : State) : State :=
  { s with acc := 0, ip := 0, status := .running, input := input, out := [] }

/-- `Advance()` (spec/40_cycle.md R75): no wrap; at 99 it raises `OutOfRangeAddress`, IP staying 99. -/
def advance (s : State) : State :=
  if h : s.ip.val < Config.addrMax then { s with ip := ⟨s.ip.val + 1, Nat.succ_lt_succ h⟩ }
  else raise .outOfRangeAddress s

/-- `Input()` (spec/41_io.md R92): the next Word of the port and the state without it, or `none` when
the port has no Word. -/
def takeInput (s : State) : Option (Int × State) :=
  match s.input with
  | [] => none
  | v :: rest => some (v, { s with input := rest })

/-- `Output(v)` (spec/41_io.md R93): the port takes the Word in the same step. -/
def emit (v : Int) (s : State) : State := { s with out := s.out ++ [v] }

/-- The fetch of a cycle (spec/40_cycle.md R71 step 1, R72): the Word at IP, as memory is now
(spec/20_memory.md R41). -/
def fetch (s : State) : Int := readMem s.ip s

/-- The numeric code of a fault kind (spec/60_exceptions.md R150); no program can observe it. -/
def Fault.code : Fault → Nat
  | .divideByZero => 1
  | .invalidOpcode => 2
  | .outOfRangeAddress => 3
  | .overflow => 4

end Sys2Proof.Machine
end

