-- ==== Sys2Proof/Machine/Flags.lean ====
section
/-! DEFINITION. The machine has no flags and no condition codes (spec/10_state.md R18): what a branch
tests is the accumulator itself, and what arithmetic checks is the exact result's range. -/

namespace Sys2Proof.Machine

/-- The test of BRANCHNEG (spec/44_control.md R131): 0 is not negative. -/
abbrev accNegative (s : State) : Prop := s.acc < 0

/-- The test of BRANCHZERO (spec/44_control.md R132). -/
abbrev accZero (s : State) : Prop := s.acc = 0

/-- The end common to ADD, SUBTRACT and MULTIPLY (spec/43_arithmetic.md R110): the exact result is
written to ACC if it is in range, and the sequencer advances; otherwise `Overflow` is raised and
nothing is written. OVERFLOW_POLICY of spec/00_scope.md R5 (decision D1) is this one place. -/
def finishArithmetic (result : Int) (s : State) : State :=
  if InRange result then advance (setAcc result s) else raise .overflow s

/-- A conditional branch (spec/40_cycle.md R73): taken, IP is the target; not taken, the sequencer
advances. -/
def branchIf (taken : Prop) [Decidable taken] (target : Address) (s : State) : State :=
  if taken then jump target s else advance s

end Sys2Proof.Machine
end

