-- ==== Sys2Proof/Machine/Operands.lean ====
section
/-! DEFINITION. The one operand form, direct addressing (spec/20_memory.md R31), behind the address
decoder (R35), and the quotient DIVIDE computes (spec/43_arithmetic.md R115). -/

namespace Sys2Proof.Machine

/-- The address decoder (spec/20_memory.md R35): it admits an operand as an address only if
`0 <= operand <= 99`; the address is the operand itself (R31). -/
def addressOf (operand : Int) : Option Address :=
  if h : 0 ≤ operand ∧ operand ≤ Config.addrMax then some ⟨operand.toNat, by simp at h; omega⟩ else none

/-- The address decode step of a cycle (spec/40_cycle.md R71 step 4) in front of an operation: an
operand the address decoder does not admit raises `OutOfRangeAddress`, no access is made and no
other state changes (spec/20_memory.md R35). Dead for a decoded instruction (spec/30_encoding.md
R58). -/
def withAddress (operand : Int) (s : State) (operation : Address → State) :
    Host.Outcome State Fault Refusal :=
  match addressOf operand with
  | none => .next (raise .outOfRangeAddress s)
  | some a => .next (operation a)

/-- The quotient of DIVIDE (spec/43_arithmetic.md R113, R115): integer division rounded toward zero,
`tdiv` of spec/00_scope.md R7. The spec's decision D4 asks for it under one name. -/
def quotient (dividend divisor : Int) : Int := dividend.tdiv divisor

end Sys2Proof.Machine
end

