-- ==== Sys2Proof/Machine/Arithmetic.lean ====
section
/-! DEFINITION. ADD, SUBTRACT, DIVIDE and MULTIPLY (spec/43_arithmetic.md R110 to R115). The results
are exact integers until the range test (R110, R114). -/

namespace Sys2Proof.Machine

/-- ADD (R111): `ACC + MEM[operand]`. -/
def execAdd (operand : Int) (s : State) : Host.Outcome State Fault Refusal :=
  withAddress operand s fun a => finishArithmetic (s.acc + readMem a s) s

/-- SUBTRACT (R112): `ACC - MEM[operand]`, never the reverse. -/
def execSubtract (operand : Int) (s : State) : Host.Outcome State Fault Refusal :=
  withAddress operand s fun a => finishArithmetic (s.acc - readMem a s) s

/-- DIVIDE (R113): a zero divisor raises `DivideByZero` before the division; otherwise
`ACC <- ACC tdiv MEM[operand]`, which cannot overflow. -/
def execDivide (operand : Int) (s : State) : Host.Outcome State Fault Refusal :=
  withAddress operand s fun a =>
    if readMem a s = 0 then raise .divideByZero s
    else advance (setAcc (quotient s.acc (readMem a s)) s)

/-- MULTIPLY (R114): `ACC * MEM[operand]`. -/
def execMultiply (operand : Int) (s : State) : Host.Outcome State Fault Refusal :=
  withAddress operand s fun a => finishArithmetic (s.acc * readMem a s) s

end Sys2Proof.Machine
end

