-- ==== Sys2Proof/Machine/Control.lean ====
section
/-! DEFINITION. BRANCH, BRANCHNEG, BRANCHZERO and HALT (spec/44_control.md R130 to R133). -/

namespace Sys2Proof.Machine

/-- BRANCH (R130): `IP <- operand`, no advance. -/
def execBranch (operand : Int) (s : State) : Host.Outcome State Fault Refusal :=
  withAddress operand s fun a => jump a s

/-- BRANCHNEG (R131): taken if `ACC < 0`. -/
def execBranchneg (operand : Int) (s : State) : Host.Outcome State Fault Refusal :=
  withAddress operand s fun a => branchIf (accNegative s) a s

/-- BRANCHZERO (R132): taken if `ACC = 0`. -/
def execBranchzero (operand : Int) (s : State) : Host.Outcome State Fault Refusal :=
  withAddress operand s fun a => branchIf (accZero s) a s

/-- HALT (R133): `STATUS <- Halted`; IP, ACC and MEM unchanged. The operand is used for nothing
(spec/30_encoding.md R57); it passes the address decoder like every operand (spec/20_memory.md
R35). -/
def execHalt (operand : Int) (s : State) : Host.Outcome State Fault Refusal :=
  withAddress operand s fun _ => stopRun s

end Sys2Proof.Machine
end

