-- ==== Sys2Proof/Machine/InputOutput.lean ====
section
/-! DEFINITION. READ and WRITE (spec/41_io.md R90, R91). -/

namespace Sys2Proof.Machine

/-- READ (R90): `v <- Input(); MEM[operand] <- v; Advance()`. While the port has no Word the
instruction waits and nothing has changed (spec/40_cycle.md R80): the step answers the same state
(notes/assumptions/3.md). -/
def execRead (operand : Int) (s : State) : Host.Outcome State Fault Refusal :=
  withAddress operand s fun a =>
    match takeInput s with
    | none => s
    | some (v, s') => advance (writeMem a v s')

/-- WRITE (R91): `Output(MEM[operand]); Advance()`. -/
def execWrite (operand : Int) (s : State) : Host.Outcome State Fault Refusal :=
  withAddress operand s fun a => advance (emit (readMem a s) s)

end Sys2Proof.Machine
end

