-- ==== Sys2Proof/Machine/LoadStore.lean ====
section
/-! DEFINITION. LOAD and STORE (spec/42_load_store.md R100, R101). -/

namespace Sys2Proof.Machine

/-- LOAD (R100): `ACC <- MEM[operand]; Advance()`. -/
def execLoad (operand : Int) (s : State) : Host.Outcome State Fault Refusal :=
  withAddress operand s fun a => advance (setAcc (readMem a s) s)

/-- STORE (R101): `MEM[operand] <- ACC; Advance()`. -/
def execStore (operand : Int) (s : State) : Host.Outcome State Fault Refusal :=
  withAddress operand s fun a => advance (writeMem a s.acc s)

end Sys2Proof.Machine
end

