-- ==== Sys2Proof/Machine/Dispatch.lean ====
section
/-! DEFINITION. The dispatch of spec/40_cycle.md R71 step 5: the one operation the instruction selects. -/

namespace Sys2Proof.Machine

def exec (i : Instr) (s : State) : Host.Outcome State Fault Refusal :=
  match i with
  | .read operand => Sys2Proof.Machine.execRead operand s
  | .write operand => Sys2Proof.Machine.execWrite operand s
  | .load operand => Sys2Proof.Machine.execLoad operand s
  | .store operand => Sys2Proof.Machine.execStore operand s
  | .add operand => Sys2Proof.Machine.execAdd operand s
  | .subtract operand => Sys2Proof.Machine.execSubtract operand s
  | .divide operand => Sys2Proof.Machine.execDivide operand s
  | .multiply operand => Sys2Proof.Machine.execMultiply operand s
  | .branch operand => Sys2Proof.Machine.execBranch operand s
  | .branchneg operand => Sys2Proof.Machine.execBranchneg operand s
  | .branchzero operand => Sys2Proof.Machine.execBranchzero operand s
  | .halt operand => Sys2Proof.Machine.execHalt operand s

end Sys2Proof.Machine
end

