-- ==== Sys2Proof/Machine/Step.lean ====
section
/-! DEFINITION. One step of the machine (spec/40_cycle.md R71, R77, R78), and the state in which a given
word is the next instruction. -/

namespace Sys2Proof.Machine

/-- One step. While STATUS is Running: fetch, decode, an illegal word raising `InvalidOpcode` before
any other effect (spec/60_exceptions.md R152), then the instruction. Once STATUS is terminal the core
makes no step and no state element changes (R77): the step answers the same state
(notes/assumptions/2.md). -/
def step (s : State) : Host.Outcome State Fault Refusal :=
  match s.status with
  | .running =>
    match decode (fetch s) with
    | .error _ => .next (raise .invalidOpcode s)
    | .ok i => exec i s
  | .halted => .next s
  | .fault _ => .next s

/-- The state in which the next step fetches the instruction that spec/opcode_table.json's bits `w`
stand for: the Word is in memory at IP and the run goes on (notes/assumptions/11.md). A pattern that
is no Word leaves 0 there, an illegal word (notes/assumptions/10.md). -/
def State.withFetchWord (s : State) (nbits w : Nat) : State :=
  { writeMem s.ip ((wordOfTableBits nbits w).getD 0) s with status := .running }

end Sys2Proof.Machine
end

