-- ==== Sys2Proof/Machine/Environment.lean ====
section
/-! DEFINITION. What the outside world can do to the machine: the interfaces of decision D9
(spec/92_eei_decisions.md). They are no steps of the core. `none` where the environment has no such
move, or where what it would give is no Word (spec/93_implementation_defined.md U9): see
notes/assumptions/12.md. -/

namespace Sys2Proof.Machine

/-- The loader's 100 words from the program's words, the first at address `n`: "one per memory
location", the rest 0 (spec/70_reset_and_hazards.md R183), in the canonical form. -/
def Memory.ofWords (n : Nat) (words : List Int) : Memory :=
  match words with
  | [] => []
  | w :: rest =>
    if w = Config.defaultFill then Memory.ofWords (n + 1) rest
    else (n, w) :: Memory.ofWords (n + 1) rest

/-- A run's launch (spec/00_scope.md R5, spec/10_state.md R22): INIT_MEM, at most 100 Words from
address 0, "location 0 first", the rest 0 (R183); and INPUT. There is no launch if one of them is no
Word (spec/93_implementation_defined.md U9), nor, DESIGN CHOICE of notes/assumptions/12.md (safe), if
the program is longer than memory. -/
def launch (program input : List Int) : Option State :=
  if program.length ≤ Config.memSize ∧ (∀ w ∈ program, InRange w) ∧ (∀ w ∈ input, InRange w) then
    some (State.launched (Memory.ofWords 0 program) input)
  else none

/-- The load port: one Word into one location, only while STATUS is not Running. -/
def loadWord (a : Address) (v : Int) (s : State) : Option State :=
  if s.status ≠ .running ∧ InRange v then some (writeMem a v s) else none

/-- START, the reset event: only while STATUS is not Running (spec/70_reset_and_hazards.md R180). -/
def start (input : List Int) (s : State) : Option State :=
  if s.status ≠ .running ∧ ∀ w ∈ input, InRange w then some (resetEvent input s) else none

/-- The input port: the collaborator supplies one more Word (spec/41_io.md R92), which a READ blocked
for want of it then takes. -/
def supply (v : Int) (s : State) : Option State :=
  if InRange v then some { s with input := s.input ++ [v] } else none

/-- The result of a run (spec/40_cycle.md R81). -/
structure RunResult where
  status : Status
  out : List Int
  acc : Int
  mem : Memory
  ip : Address
  deriving DecidableEq, Repr

/-- The read-out, meaningful once STATUS is terminal (R81; spec/10_state.md R23). -/
def result (s : State) : Option RunResult :=
  match s.status with
  | .running => none
  | t => some { status := t, out := s.out, acc := s.acc, mem := s.mem, ip := s.ip }

end Sys2Proof.Machine
end

