-- ==== Sys2Proof/Safety.lean ====
section
/-! DEFINITION. What counts as a safe run, in the terms the statements use. -/

namespace Sys2Proof.Machine

/-- Every listed word is a Word. -/
abbrev Memory.WordsInRange (m : Memory) : Prop := ∀ c ∈ m, InRange c.2

/-- The invariant of spec/10_state.md R24 over this model's state: memory has its canonical form and
holds Words, ACC is a Word, and so is every Word that the port will supply or has taken. That IP is
in 0 to 99 is its type. -/
abbrev State.Inv (s : State) : Prop :=
  s.mem.wf ∧ s.mem.WordsInRange ∧ InRange s.acc ∧ (∀ w ∈ s.input, InRange w) ∧
    ∀ w ∈ s.out, InRange w

/-- STATUS is Halted or Fault(k): the run is over (spec/40_cycle.md R77, R81). -/
abbrev State.terminal (s : State) : Prop := s.status ≠ .running

/-- The fetched instruction is a READ. -/
def State.atRead (s : State) : Bool :=
  match decode (fetch s) with
  | .ok (.read _) => true
  | .ok _ => false
  | .error _ => false

/-- The run is stuck for want of input: a READ is executing and the port has no Word
(spec/40_cycle.md R80, spec/60_exceptions.md R167). Neither terminal nor a fault. -/
abbrev State.blocked (s : State) : Prop := s.status = .running ∧ s.atRead = true ∧ s.input = []

/-- The core has a step of the spec's own: it is running and not blocked. -/
abbrev State.enabled (s : State) : Prop := s.status = .running ∧ ¬ s.blocked

/-- One cycle of spec/40_cycle.md R71, as against a step that only waits or rests in a terminal
state. -/
abbrev Cycle (s t : State) : Prop := s.enabled ∧ step s = .next t

/-- "The program halts cleanly" (spec/60_exceptions.md R167). -/
abbrev State.haltedCleanly (s : State) : Prop := s.status = .halted

/-- The run ended in a fault, of any of the four kinds (spec/60_exceptions.md R167). -/
abbrev State.faulted (s : State) : Prop := ∃ k, s.status = .fault k

end Sys2Proof.Machine
end

