-- ==== Sys2Proof/Certificates/Slice0/Obligations.lean ====
section
/-! DEFINITION. The statements for the provers, from the numbered rules of spec/. In every statement
about an instruction, `addressOf x = some a` says that the operand `x` is the address `a`; it holds of
every operand 00 to 99 and of no other (`AddressDecoderAdmitsExactlyTheHundredAddresses`). A clause
"`n.val = s.ip.val + 1`" is the instruction at an address below 99, a clause "`s.ip.val = 99`" the one
at 99 (R75, the spec's decision D2). A state written as an update of `s` leaves every other field, and
so every other word of memory, as it was: that is the frame. -/

open Sys2Proof Sys2Proof.Machine

/-! ## Encoding and decode -/

/-- R52 of spec/30_encoding.md: the decoder's pair, for every integer, and the ranges it gives. -/
def Obligations.DecoderSplitsWordIntoOpcodeAndOperand : Prop :=
  ∀ w : Int,
    opcodeOf w = w.tdiv 100 ∧ operandOf w = w.tmod 100 ∧
    decode w = recognise (w.tdiv 100) (w.tmod 100) ∧
    (0 ≤ w → w ≤ 9999 →
      (0 ≤ opcodeOf w ∧ opcodeOf w ≤ 99) ∧ 0 ≤ operandOf w ∧ operandOf w ≤ 99) ∧
    (-9999 ≤ w → w < 0 →
      (-99 ≤ opcodeOf w ∧ opcodeOf w ≤ 0) ∧ -99 ≤ operandOf w ∧ operandOf w ≤ 0)

/-- Some of the decode vectors of R64 of spec/30_encoding.md, at least one for every instruction, and
illegal words of both signs. -/
def Obligations.DecodeAgreesWithTheSpecsVectors : Prop :=
  decode 1007 = .ok (.read 7) ∧ decode 1109 = .ok (.write 9) ∧ decode 2007 = .ok (.load 7) ∧
  decode 2199 = .ok (.store 99) ∧ decode 3008 = .ok (.add 8) ∧ decode 3108 = .ok (.subtract 8) ∧
  decode 3208 = .ok (.divide 8) ∧ decode 3399 = .ok (.multiply 99) ∧
  decode 4000 = .ok (.branch 0) ∧ decode 4107 = .ok (.branchneg 7) ∧
  decode 4299 = .ok (.branchzero 99) ∧ decode 4300 = .ok (.halt 0) ∧ decode 4399 = .ok (.halt 99) ∧
  decode 0 = .error (.unrecognisedOpcode 0) ∧ decode 1200 = .error (.unrecognisedOpcode 12) ∧
  decode 9999 = .error (.unrecognisedOpcode 99) ∧ decode (-1007) = .error (.unrecognisedOpcode (-10))

/-- R60 of spec/30_encoding.md, first direction, an inference of the spec: decoding the word that
encodes a legal instruction gives the instruction back, for every operand; and that word is a Word. -/
def Obligations.DecodeOfEncodeIsTheInstruction : Prop :=
  ∀ i : Instr, i.WellFormed → decode (encode i) = .ok i ∧ InRange (encode i)

/-- R60, the other direction, and R58 of spec/30_encoding.md, inferences of the spec: a decoded
instruction is legal, and encoding it gives the word back. -/
def Obligations.EncodeOfDecodeIsTheWord : Prop :=
  ∀ (w : Int) (i : Instr), decode w = .ok i → encode i = w ∧ i.WellFormed

/-- R55 of spec/30_encoding.md: the legal instruction words are exactly the words 1000 to 1199, 2000 to
2199, 3000 to 3399 and 4000 to 4399. That a negative word is illegal is the spec's decision D5. -/
def Obligations.LegalWordsAreExactlyTheTwelveHundred : Prop :=
  ∀ w : Int, (∃ i, decode w = .ok i) ↔
    (1000 ≤ w ∧ w ≤ 1199) ∨ (2000 ≤ w ∧ w ≤ 2199) ∨ (3000 ≤ w ∧ w ≤ 3399) ∨ (4000 ≤ w ∧ w ≤ 4399)

/-- R63 of spec/30_encoding.md (the spec's decision D13): the opcode table's pattern of four decimal
digits stands for the word of those digits, sign 0 for plus and 1 for minus, and no pattern for minus
zero is a Word. -/
def Obligations.TableBitsStandForTheDecimalWord : Prop :=
  ∀ d3 d2 d1 d0 : Nat, d3 ≤ 9 → d2 ≤ 9 → d1 ≤ 9 → d0 ≤ 9 →
    wordOfTableBits 17 (4096 * d3 + 256 * d2 + 16 * d1 + d0)
      = some (1000 * d3 + 100 * d2 + 10 * d1 + d0 : Int) ∧
    wordOfTableBits 17 (65536 + 4096 * d3 + 256 * d2 + 16 * d1 + d0)
      = if d3 + d2 + d1 + d0 = 0 then none else some (-(1000 * d3 + 100 * d2 + 10 * d1 + d0) : Int)

/-! ## Operands and memory -/

/-- R31 and R35 of spec/20_memory.md: an operand is admitted exactly if it is in 0 to 99, and the
address is the operand itself. -/
def Obligations.AddressDecoderAdmitsExactlyTheHundredAddresses : Prop :=
  ∀ x : Int, (∀ a : Address, addressOf x = some a ↔ (a.val : Int) = x) ∧
    (addressOf x = none ↔ x < 0 ∨ 99 < x)

/-- R35 of spec/20_memory.md (placed in the cycle by the spec's decision D17): an instruction with an
operand outside 0 to 99, which no fetched Word is, makes no access and changes nothing but STATUS. -/
def Obligations.OperandOutsideMemoryRaisesOutOfRangeAddress : Prop :=
  ∀ (i : Instr) (s : State), ¬ i.WellFormed →
    exec i s = .next { s with status := .fault .outOfRangeAddress }

/-- R34 of spec/20_memory.md over the model's memory: a write sets one word and no other, a later
write to the address wins, and writing the same value twice is the same as writing it once. -/
def Obligations.MemoryWriteSetsOneWord : Prop :=
  ∀ (m : Memory) (a : Address) (u v : Int),
    (∀ b : Address, (m.write a v).read b = if b = a then v else m.read b) ∧
    (m.write a u).write a v = m.write a v

/-- The model's canonical form (notes/assumptions/6.md, DESIGN CHOICE): two memories in that form that
read alike everywhere are the same data. -/
def Obligations.CanonicalMemoriesThatReadAlikeAreEqual : Prop :=
  ∀ m m' : Memory, m.wf → m'.wf → (∀ a : Address, m.read a = m'.read a) → m = m'

/-! ## Input, output, load and store -/

/-- R90 of spec/41_io.md. The first clause, that a READ without input waits and answers the same state,
is the model's choice for the spec's "no step" (notes/assumptions/3.md, DESIGN CHOICE; spec decision
D10). The second is the READ that completes; at 99 the Word is stored before the fault. -/
def Obligations.ReadStoresTheNextInputWord : Prop :=
  ∀ (x : Int) (a : Address) (s : State), addressOf x = some a →
    decode (1000 + x) = .ok (.read x) ∧
    (s.input = [] → exec (.read x) s = .next s) ∧
    ∀ v rest, s.input = v :: rest →
      ∃ t, exec (.read x) s = .next t ∧
        (∀ b : Address, t.mem.read b = if b = a then v else s.mem.read b) ∧
        t.input = rest ∧ t.acc = s.acc ∧ t.out = s.out ∧
        (∀ n : Address, n.val = s.ip.val + 1 → t.ip = n ∧ t.status = s.status) ∧
        (s.ip.val = 99 → t.ip = s.ip ∧ t.status = .fault .outOfRangeAddress)

/-- R91 of spec/41_io.md: WRITE emits the memory word unchanged, and changes IP and OUT alone; at 99
the Word is emitted before the fault. -/
def Obligations.WriteEmitsTheMemoryWord : Prop :=
  ∀ (x : Int) (a : Address) (s : State), addressOf x = some a →
    decode (1100 + x) = .ok (.write x) ∧
    (∀ n : Address, n.val = s.ip.val + 1 →
      exec (.write x) s = .next { s with out := s.out ++ [s.mem.read a], ip := n }) ∧
    (s.ip.val = 99 → exec (.write x) s =
      .next { s with out := s.out ++ [s.mem.read a], status := .fault .outOfRangeAddress })

/-- R100 of spec/42_load_store.md: LOAD writes the memory word to ACC and changes IP and ACC alone; at
99 ACC is written before the fault. -/
def Obligations.LoadSetsTheAccumulator : Prop :=
  ∀ (x : Int) (a : Address) (s : State), addressOf x = some a →
    decode (2000 + x) = .ok (.load x) ∧
    (∀ n : Address, n.val = s.ip.val + 1 →
      exec (.load x) s = .next { s with acc := s.mem.read a, ip := n }) ∧
    (s.ip.val = 99 →
      exec (.load x) s = .next { s with acc := s.mem.read a, status := .fault .outOfRangeAddress })

/-- R101 of spec/42_load_store.md: STORE writes ACC to the one word its operand addresses; at 99 the
word is written before the fault. -/
def Obligations.StoreWritesTheAccumulatorToMemory : Prop :=
  ∀ (x : Int) (a : Address) (s : State), addressOf x = some a →
    decode (2100 + x) = .ok (.store x) ∧
    ∃ t, exec (.store x) s = .next t ∧
      (∀ b : Address, t.mem.read b = if b = a then s.acc else s.mem.read b) ∧
      t.acc = s.acc ∧ t.input = s.input ∧ t.out = s.out ∧
      (∀ n : Address, n.val = s.ip.val + 1 → t.ip = n ∧ t.status = s.status) ∧
      (s.ip.val = 99 → t.ip = s.ip ∧ t.status = .fault .outOfRangeAddress)

/-! ## Arithmetic -/

/-- R110 and R111 of spec/43_arithmetic.md: ADD. That a result out of range is a fault with nothing
written is the spec's own decision D1. -/
def Obligations.AddWritesTheExactSumOrOverflows : Prop :=
  ∀ (x : Int) (a : Address) (s : State), addressOf x = some a →
    decode (3000 + x) = .ok (.add x) ∧
    (-9999 ≤ s.acc + s.mem.read a → s.acc + s.mem.read a ≤ 9999 →
      (∀ n : Address, n.val = s.ip.val + 1 →
        exec (.add x) s = .next { s with acc := s.acc + s.mem.read a, ip := n }) ∧
      (s.ip.val = 99 → exec (.add x) s =
        .next { s with acc := s.acc + s.mem.read a, status := .fault .outOfRangeAddress })) ∧
    (s.acc + s.mem.read a < -9999 ∨ 9999 < s.acc + s.mem.read a →
      exec (.add x) s = .next { s with status := .fault .overflow })

/-- R110 and R112 of spec/43_arithmetic.md: SUBTRACT, accumulator minus memory. Overflow: decision D1. -/
def Obligations.SubtractWritesTheExactDifferenceOrOverflows : Prop :=
  ∀ (x : Int) (a : Address) (s : State), addressOf x = some a →
    decode (3100 + x) = .ok (.subtract x) ∧
    (-9999 ≤ s.acc - s.mem.read a → s.acc - s.mem.read a ≤ 9999 →
      (∀ n : Address, n.val = s.ip.val + 1 →
        exec (.subtract x) s = .next { s with acc := s.acc - s.mem.read a, ip := n }) ∧
      (s.ip.val = 99 → exec (.subtract x) s =
        .next { s with acc := s.acc - s.mem.read a, status := .fault .outOfRangeAddress })) ∧
    (s.acc - s.mem.read a < -9999 ∨ 9999 < s.acc - s.mem.read a →
      exec (.subtract x) s = .next { s with status := .fault .overflow })

/-- R110 and R114 of spec/43_arithmetic.md: MULTIPLY. Overflow: decision D1. -/
def Obligations.MultiplyWritesTheExactProductOrOverflows : Prop :=
  ∀ (x : Int) (a : Address) (s : State), addressOf x = some a →
    decode (3300 + x) = .ok (.multiply x) ∧
    (-9999 ≤ s.acc * s.mem.read a → s.acc * s.mem.read a ≤ 9999 →
      (∀ n : Address, n.val = s.ip.val + 1 →
        exec (.multiply x) s = .next { s with acc := s.acc * s.mem.read a, ip := n }) ∧
      (s.ip.val = 99 → exec (.multiply x) s =
        .next { s with acc := s.acc * s.mem.read a, status := .fault .outOfRangeAddress })) ∧
    (s.acc * s.mem.read a < -9999 ∨ 9999 < s.acc * s.mem.read a →
      exec (.multiply x) s = .next { s with status := .fault .overflow })

/-- R113 of spec/43_arithmetic.md: DIVIDE by a divisor that is not 0. The quotient is the model's
`quotient`, which `QuotientIsRoundedTowardZero` describes (the spec's decision D4). -/
def Obligations.DivideWritesTheQuotient : Prop :=
  ∀ (x : Int) (a : Address) (s : State), addressOf x = some a →
    decode (3200 + x) = .ok (.divide x) ∧
    (s.mem.read a ≠ 0 →
      (∀ n : Address, n.val = s.ip.val + 1 →
        exec (.divide x) s = .next { s with acc := quotient s.acc (s.mem.read a), ip := n }) ∧
      (s.ip.val = 99 → exec (.divide x) s =
        .next { s with acc := quotient s.acc (s.mem.read a), status := .fault .outOfRangeAddress }))

/-- R7 of spec/00_scope.md and R115 of spec/43_arithmetic.md: the quotient rounds toward zero, its
remainder is zero or has the sign of the dividend, and it is never larger than the dividend (R113), so
that DIVIDE cannot overflow. That DIVIDE rounds so is the spec's decision D4. -/
def Obligations.QuotientIsRoundedTowardZero : Prop :=
  ∀ n d : Int, d ≠ 0 →
    quotient n d = n.sign * d.sign * ((n.natAbs / d.natAbs : Nat) : Int) ∧
    (n - d * quotient n d = 0 ∨ (n - d * quotient n d).sign = n.sign) ∧
    (n - d * quotient n d).natAbs < d.natAbs ∧
    (InRange n → InRange (quotient n d))

/-- R151 of spec/60_exceptions.md: DIVIDE by 0 raises `DivideByZero` whatever ACC and IP hold, with
nothing but STATUS changed, and no other cause raises it. -/
def Obligations.DivideByZeroFaultsAndNothingElseRaisesIt : Prop :=
  (∀ (x : Int) (a : Address) (s : State), addressOf x = some a → s.mem.read a = 0 →
    exec (.divide x) s = .next { s with status := .fault .divideByZero }) ∧
  (∀ s t : State, s.status = .running → step s = .next t → t.status = .fault .divideByZero →
    ∃ x a, decode (s.mem.read s.ip) = .ok (.divide x) ∧ addressOf x = some a ∧ s.mem.read a = 0)

/-! ## Control transfer and halt -/

/-- R130 of spec/44_control.md: BRANCH, at every address and for every ACC. -/
def Obligations.BranchSetsIpToTheOperand : Prop :=
  ∀ (x : Int) (a : Address) (s : State), addressOf x = some a →
    decode (4000 + x) = .ok (.branch x) ∧ exec (.branch x) s = .next { s with ip := a }

/-- R131 of spec/44_control.md: BRANCHNEG. -/
def Obligations.BranchnegJumpsIfAccumulatorIsNegative : Prop :=
  ∀ (x : Int) (a : Address) (s : State), addressOf x = some a →
    decode (4100 + x) = .ok (.branchneg x) ∧
    (s.acc < 0 → exec (.branchneg x) s = .next { s with ip := a }) ∧
    (0 ≤ s.acc →
      (∀ n : Address, n.val = s.ip.val + 1 → exec (.branchneg x) s = .next { s with ip := n }) ∧
      (s.ip.val = 99 →
        exec (.branchneg x) s = .next { s with status := .fault .outOfRangeAddress }))

/-- R132 of spec/44_control.md: BRANCHZERO. -/
def Obligations.BranchzeroJumpsIfAccumulatorIsZero : Prop :=
  ∀ (x : Int) (a : Address) (s : State), addressOf x = some a →
    decode (4200 + x) = .ok (.branchzero x) ∧
    (s.acc = 0 → exec (.branchzero x) s = .next { s with ip := a }) ∧
    (s.acc ≠ 0 →
      (∀ n : Address, n.val = s.ip.val + 1 → exec (.branchzero x) s = .next { s with ip := n }) ∧
      (s.ip.val = 99 →
        exec (.branchzero x) s = .next { s with status := .fault .outOfRangeAddress }))

/-- R133 of spec/44_control.md and R57 of spec/30_encoding.md: HALT, whatever its operand, changes
STATUS alone. That it writes no memory is the spec's decision D3, that the operand is ignored D6, that
IP stays D7. -/
def Obligations.HaltChangesStatusAlone : Prop :=
  ∀ (x : Int) (a : Address) (s : State), addressOf x = some a →
    decode (4300 + x) = .ok (.halt x) ∧ exec (.halt x) s = .next { s with status := .halted }

/-- R74 of spec/40_cycle.md: after a taken branch to A, by BRANCH whatever ACC holds, by BRANCHNEG with
ACC negative or by BRANCHZERO with ACC 0, the next fetch is the word at A, with no 1 added; and such a
branch to its own address loops for ever. -/
def Obligations.BranchDoesNotAlsoIncrement : Prop :=
  ∀ (x : Int) (a : Address) (s : State), s.status = .running → addressOf x = some a →
    (s.mem.read s.ip = 4000 + x ∨ (s.mem.read s.ip = 4100 + x ∧ s.acc < 0) ∨
      (s.mem.read s.ip = 4200 + x ∧ s.acc = 0)) →
    step s = .next { s with ip := a } ∧ fetch { s with ip := a } = s.mem.read a ∧
    (a = s.ip → ∀ k : Nat, core.run k s = .next s)

/-! ## The step -/

/-- R71 and R78 of spec/40_cycle.md: the step of a running core is the instruction that the word at IP
decodes to. -/
def Obligations.StepRunsTheDecodedInstruction : Prop :=
  ∀ (s : State) (i : Instr), s.status = .running →
    (decode (s.mem.read s.ip) = .ok i → step s = exec i s) ∧
    (i.WellFormed → s.mem.read s.ip = encode i → step s = exec i s)

/-- R152 of spec/60_exceptions.md: a fetched word with an opcode outside the twelve, 0 and every
negative word among them, raises `InvalidOpcode` before any other effect; nothing else raises it. -/
def Obligations.UnrecognisedOpcodeRaisesInvalidOpcode : Prop :=
  ∀ s : State, s.status = .running →
    ((s.mem.read s.ip).tdiv 100 ∉ [10, 11, 20, 21, 30, 31, 32, 33, 40, 41, 42, 43] →
      step s = .next { s with status := .fault .invalidOpcode }) ∧
    (s.mem.read s.ip ≤ 0 → step s = .next { s with status := .fault .invalidOpcode }) ∧
    (∀ t, step s = .next t → t.status = .fault .invalidOpcode →
      (s.mem.read s.ip).tdiv 100 ∉ [10, 11, 20, 21, 30, 31, 32, 33, 40, 41, 42, 43])

/-- R77 of spec/40_cycle.md: nothing changes once STATUS is terminal, in any number of steps. That the
model's step answers the same state, where the spec has no step, is the model's choice
(notes/assumptions/2.md, DESIGN CHOICE). -/
def Obligations.TerminalStatusIsFinal : Prop :=
  ∀ (s : State) (k : Nat), s.status ≠ .running → core.run k s = .next s

/-- The model's own property (notes/assumptions/1.md, DESIGN CHOICE): every step answers a next state,
so that no instruction and no word stops the model by an outcome that the spec does not give. -/
def Obligations.EveryStepAnswersANextState : Prop :=
  ∀ s : State, ∃ t, step s = .next t

/-- R79 of spec/40_cycle.md, an inference of the spec: what a cycle may change. Memory only at the
operand of a READ or STORE; ACC only by LOAD and arithmetic; OUT by one Word and only by WRITE; INPUT
by its first Word and only by READ; never two of MEM, ACC and OUT. -/
def Obligations.CycleChangesAtMostOneOfMemoryAccAndOut : Prop :=
  ∀ s t : State, s.status = .running → step s = .next t →
    (∀ b : Address, t.mem.read b ≠ s.mem.read b →
      opcodeOf (s.mem.read s.ip) ∈ [10, 21] ∧ (b.val : Int) = operandOf (s.mem.read s.ip)) ∧
    (t.mem ≠ s.mem → opcodeOf (s.mem.read s.ip) ∈ [10, 21]) ∧
    (t.acc ≠ s.acc → opcodeOf (s.mem.read s.ip) ∈ [20, 30, 31, 32, 33]) ∧
    (t.out ≠ s.out → opcodeOf (s.mem.read s.ip) = 11 ∧ ∃ v, t.out = s.out ++ [v]) ∧
    (t.input ≠ s.input → opcodeOf (s.mem.read s.ip) = 10 ∧ ∃ v, s.input = v :: t.input) ∧
    ¬ (t.mem ≠ s.mem ∧ t.acc ≠ s.acc) ∧ ¬ (t.mem ≠ s.mem ∧ t.out ≠ s.out) ∧
    ¬ (t.acc ≠ s.acc ∧ t.out ≠ s.out)

/-- R73 of spec/40_cycle.md: the sequencer takes one of three actions. IP is held, or it advances by 1
(no BRANCH and no HALT does), or it is the operand (a branch alone does). The waiting READ and the
terminal state count as holding (notes/assumptions/2.md and 3.md). -/
def Obligations.IpIsHeldAdvancedOrTheBranchTarget : Prop :=
  ∀ s t : State, step s = .next t →
    t.ip = s.ip ∨
    (t.ip.val = s.ip.val + 1 ∧ opcodeOf (s.mem.read s.ip) ∉ [40, 43]) ∨
    (opcodeOf (s.mem.read s.ip) ∈ [40, 41, 42] ∧ (t.ip.val : Int) = operandOf (s.mem.read s.ip))

/-- R24 of spec/10_state.md, an inference of the spec, over the model's state: memory keeps its
canonical form, and memory, ACC, INPUT and OUT hold Words, across every step from every such state. -/
def Obligations.EveryStepKeepsTheWordInvariant : Prop :=
  ∀ s t : State, s.Inv → step s = .next t → t.Inv

/-- The invariant of R24 holds right after reset. -/
def Obligations.ResetStateMeetsTheWordInvariant : Prop := State.reset.Inv

/-- R24 of spec/10_state.md, an inference of the spec, of whole runs: at every point of a run that
starts from any program of Words with any input of Words, the invariant holds. -/
def Obligations.EveryLaunchedRunKeepsTheWordInvariant : Prop :=
  ∀ (program input : List Int) (s t : State) (k : Nat),
    launch program input = some s → core.run k s = .next t → t.Inv

/-! ## Faults and the end of a run -/

/-- R156 of spec/60_exceptions.md (IP by the spec's decision D7): after `DivideByZero`, `InvalidOpcode`
and `Overflow` every element but STATUS is as before the cycle. After `OutOfRangeAddress` IP is 99, the
address of the instruction, which is no BRANCH and no HALT (R76) and has had every effect but the
advance: it is the state that the same instruction reaches from any address `m` below 99, but for IP
and STATUS. The operand form of `OutOfRangeAddress`, which no step reaches, is in
`OperandOutsideMemoryRaisesOutOfRangeAddress`. -/
def Obligations.FaultsArePrecise : Prop :=
  ∀ (s t : State) (k : Fault), s.status = .running → step s = .next t → t.status = .fault k →
    (k ≠ .outOfRangeAddress → t = { s with status := .fault k }) ∧
    (k = .outOfRangeAddress →
      s.ip.val = 99 ∧ t.ip = s.ip ∧ opcodeOf (s.mem.read s.ip) ∉ [40, 43] ∧
      ∃ i, decode (s.mem.read s.ip) = .ok i ∧
        ∀ m n : Address, n.val = m.val + 1 →
          exec i { s with ip := m } = .next { t with ip := n, status := .running })

/-- R154 of spec/60_exceptions.md (the spec's decision D1): only ADD, SUBTRACT and MULTIPLY raise
`Overflow`, and only on an exact result out of range. -/
def Obligations.OverflowComesOnlyFromAnOutOfRangeResult : Prop :=
  ∀ s t : State, s.status = .running → step s = .next t → t.status = .fault .overflow →
    ∃ a : Address, (a.val : Int) = operandOf (s.mem.read s.ip) ∧
      ((opcodeOf (s.mem.read s.ip) = 30 ∧ ¬ InRange (s.acc + s.mem.read a)) ∨
       (opcodeOf (s.mem.read s.ip) = 31 ∧ ¬ InRange (s.acc - s.mem.read a)) ∨
       (opcodeOf (s.mem.read s.ip) = 33 ∧ ¬ InRange (s.acc * s.mem.read a)))

/-- R133 (2) of spec/44_control.md and R15 of spec/10_state.md: HALT is the only successful end of a
run, and a running core becomes Halted, faulted, or stays Running. -/
def Obligations.OnlyHaltEndsARunSuccessfully : Prop :=
  ∀ s t : State, s.status = .running → step s = .next t →
    (t.status = .halted ↔ opcodeOf (s.mem.read s.ip) = 43) ∧
    (t.status = .halted → t = { s with status := .halted })

/-- R155 of spec/60_exceptions.md: taking a fault writes STATUS and nothing else, and the core goes no
further (the model's step then answers the same state: notes/assumptions/2.md, DESIGN CHOICE). -/
def Obligations.TakingAFaultWritesStatusAloneAndIsFinal : Prop :=
  ∀ (k : Fault) (s : State),
    raise k s = { s with status := .fault k } ∧ ∀ n : Nat, core.run n (raise k s) = .next (raise k s)

/-! ## Ports -/

/-- R80 of spec/40_cycle.md and R92 of spec/41_io.md (decision D10): a READ without input changes
nothing, and when the collaborator supplies a Word the READ completes with that Word. That the waiting
step answers the same state is the model's choice (notes/assumptions/3.md, DESIGN CHOICE). -/
def Obligations.BlockedReadResumesWhenAWordIsSupplied : Prop :=
  ∀ (x v : Int) (a : Address) (s : State),
    s.status = .running → s.mem.read s.ip = 1000 + x → addressOf x = some a → s.input = [] →
    InRange v →
    s.blocked ∧ (∀ k : Nat, core.run k s = .next s) ∧
    ∃ u t, supply v s = some u ∧ step u = .next t ∧
      (∀ b : Address, t.mem.read b = if b = a then v else s.mem.read b) ∧
      t.input = [] ∧ t.acc = s.acc ∧ t.out = s.out ∧
      (∀ n : Address, n.val = s.ip.val + 1 → t.ip = n ∧ t.status = .running)

/-- R21 of spec/10_state.md: what was emitted is never read back. A step is the same whatever OUT
holds. -/
def Obligations.OutputIsNeverReadBack : Prop :=
  ∀ (s t : State) (earlier : List Int), step { s with out := [] } = .next t →
    step { s with out := earlier } = .next { t with out := earlier ++ t.out }

/-- R92 of spec/41_io.md: nothing of the input is looked at ahead. A step that is not blocked is the
same whatever follows in INPUT. -/
def Obligations.InputIsNeverLookedAtAhead : Prop :=
  ∀ (s t : State) (later : List Int), ¬ s.blocked → step s = .next t →
    step { s with input := s.input ++ later } = .next { t with input := t.input ++ later }

/-- R41 of spec/20_memory.md, an inference of the spec: a Word that STORE or READ puts into the next
location is the instruction the next cycle fetches. -/
def Obligations.StoredWordIsTheNextInstruction : Prop :=
  ∀ (x : Int) (a : Address) (s : State), s.status = .running → addressOf x = some a →
    a.val = s.ip.val + 1 →
    (s.mem.read s.ip = 2100 + x → ∃ t, step s = .next t ∧ t.status = .running ∧ fetch t = s.acc) ∧
    (∀ v rest, s.input = v :: rest → s.mem.read s.ip = 1000 + x →
      ∃ t, step s = .next t ∧ t.status = .running ∧ fetch t = v)

/-! ## Reset and launch -/

/-- R181 of spec/70_reset_and_hazards.md: what the reset event does; no memory word is written, and the
first cycle fetches from address 00. -/
def Obligations.ResetEventStartsARunAtAddressZero : Prop :=
  ∀ (s : State) (input : List Int),
    (resetEvent input s).acc = 0 ∧ (resetEvent input s).ip.val = 0 ∧
    (resetEvent input s).status = .running ∧ (resetEvent input s).out = [] ∧
    (resetEvent input s).input = input ∧
    (∀ b : Address, (resetEvent input s).mem.read b = s.mem.read b) ∧
    fetch (resetEvent input s) = s.mem.read 0

/-- R22 of spec/10_state.md for `State.reset`: ACC, IP, STATUS and OUT are the rule's. The all-zero
memory and the empty INPUT, which the rule makes launch parameters, are the model's choices
(notes/assumptions/6.md and 4.md, DESIGN CHOICE). -/
def Obligations.ResetStateHoldsTheResetValues : Prop :=
  State.reset.acc = 0 ∧ State.reset.ip.val = 0 ∧ State.reset.status = .running ∧
  State.reset.out = [] ∧ State.reset.input = [] ∧ ∀ a : Address, State.reset.mem.read a = 0

/-- R180 of spec/70_reset_and_hazards.md (decision D15) and R23 of spec/10_state.md: while STATUS is
Running the environment has no reset and no load; otherwise it has. -/
def Obligations.EnvironmentCannotTouchARunningCore : Prop :=
  ∀ (s : State) (input : List Int) (a : Address) (v : Int),
    (s.status = .running → start input s = none ∧ loadWord a v s = none) ∧
    (s.status ≠ .running → (∀ w ∈ input, InRange w) → InRange v →
      start input s = some (resetEvent input s) ∧ loadWord a v s = some (writeMem a v s))

/-- R184 of spec/70_reset_and_hazards.md: a new run may follow a terminal one, from memory as the last
run left it or with words rewritten, with ACC and IP 0 and nothing else carried over. -/
def Obligations.NewRunStartsFromTheMemoryThatWasLeft : Prop :=
  ∀ (s : State) (input : List Int) (a : Address) (v : Int),
    s.status ≠ .running → (∀ w ∈ input, InRange w) → InRange v →
    start input s = some (State.launched s.mem input) ∧
    ∃ u t, loadWord a v s = some u ∧ start input u = some t ∧
      (∀ b : Address, t.mem.read b = if b = a then v else s.mem.read b) ∧
      t.acc = 0 ∧ t.ip.val = 0 ∧ t.status = .running ∧ t.input = input ∧ t.out = []

/-- R183 of spec/70_reset_and_hazards.md: the loader puts the program's words at 0, 1, 2 and so on, and
0 in the locations it does not fill. That a program or an input that holds a number outside the range is
no launch is spec/93_implementation_defined.md U9. That a program of more than 100 words is no launch is
the model's choice (notes/assumptions/12.md, DESIGN CHOICE): the spec says nothing of such a program. -/
def Obligations.LaunchLoadsTheProgramFromAddressZero : Prop :=
  ∀ program input : List Int,
    (program.length ≤ 100 → (∀ w ∈ program, InRange w) → (∀ w ∈ input, InRange w) →
      ∃ s, launch program input = some s ∧ s.input = input ∧ s.acc = 0 ∧ s.ip.val = 0 ∧
        s.status = .running ∧ s.out = [] ∧
        ∀ a : Address, s.mem.read a = program.getD a.val 0) ∧
    (100 < program.length ∨ (∃ w ∈ program, ¬ InRange w) ∨ (∃ w ∈ input, ¬ InRange w) →
      launch program input = none)

/-- The model's own (notes/assumptions/11.md, DESIGN CHOICE): `withFetchWord` makes the table's word the
next instruction. -/
def Obligations.WithFetchWordMakesItTheNextInstruction : Prop :=
  ∀ (s : State) (nbits w : Nat) (i : Instr), decodeTableWord nbits w = some i →
    step (s.withFetchWord nbits w) = exec i (s.withFetchWord nbits w)
end

