-- ==== Sys2Proof/Laws/Decode.lean ====
section
/-! SUPPORT. What the decoder and the encoder do, said once. -/

namespace Sys2Proof

/-- The split of a Word that is at least 0 (spec/30_encoding.md R52). -/
theorem opcodeOf_operandOf (w : Int) : opcodeOf w * 100 + operandOf w = w :=
  Int.tdiv_mul_add_tmod w 100

theorem operandOf_range {w : Int} (h : 0 ≤ w) : 0 ≤ operandOf w ∧ operandOf w ≤ 99 := by
  have h1 := Int.tmod_nonneg 100 h
  have h2 := Int.tmod_lt_of_pos w (b := 100) (by decide)
  exact ⟨h1, Int.le_of_lt_add_one h2⟩

/-- A Word below 0 has an opcode of at most 0 (spec/30_encoding.md R55). -/
theorem opcodeOf_nonpos {w : Int} (h : w ≤ 0) : opcodeOf w ≤ 0 := by
  have := Int.tdiv_nonneg (a := -w) (b := 100) (Int.neg_nonneg_of_nonpos h) (by decide)
  rw [Int.neg_tdiv] at this
  exact Int.nonpos_of_neg_nonneg this

/-- Splitting `opcode * 100 + operand` gives the two back. -/
theorem split_compose {c x : Int} (hc : 0 ≤ c) (h0 : 0 ≤ x) (h1 : x ≤ 99) :
    opcodeOf (c * 100 + x) = c ∧ operandOf (c * 100 + x) = x := by
  have hw : 0 ≤ c * 100 + x := by omega
  have h := opcodeOf_operandOf (c * 100 + x)
  have hr := operandOf_range hw
  constructor <;> omega

/-- Any opcode outside OPSET is rejected by name (spec/30_encoding.md R55). -/
theorem recognise_error {c x : Int} (h : c ∉ Config.opset) :
    recognise c x = .error (.unrecognisedOpcode c) := by
  simp only [Config.opset, List.mem_cons, List.not_mem_nil, or_false, not_or] at h
  simp [recognise, h]

/-- What the decoder accepts: the opcode and the operand of the instruction are the Word's own. -/
theorem recognise_ok {c x : Int} {i : Instr} (h : recognise c x = .ok i) :
    i.opcode = c ∧ i.operand = x := by
  by_cases hc : c ∈ Config.opset
  · simp only [Config.opset, List.mem_cons, List.not_mem_nil, or_false] at hc
    rcases hc with rfl | rfl | rfl | rfl | rfl | rfl | rfl | rfl | rfl | rfl | rfl | rfl <;>
      (cases h; exact ⟨rfl, rfl⟩)
  · rw [recognise_error hc] at h
    cases h

theorem decode_ok {w : Int} {i : Instr} (h : decode w = .ok i) :
    i.opcode = opcodeOf w ∧ i.operand = operandOf w := recognise_ok h

theorem recognise_opcode (i : Instr) : recognise i.opcode i.operand = .ok i := by
  cases i <;> rfl

theorem opcode_mem_opset (i : Instr) : i.opcode ∈ Config.opset := by
  cases i <;> simp [Instr.opcode]

theorem opcode_pos (i : Instr) : 10 ≤ i.opcode ∧ i.opcode ≤ 43 := by
  cases i <;> simp [Instr.opcode]

/-- The decoder accepts a Word exactly if its opcode is recognised (spec/30_encoding.md R55). -/
theorem recognise_ok_iff {c x : Int} : (∃ i, recognise c x = .ok i) ↔ c ∈ Config.opset := by
  constructor
  · rintro ⟨i, hi⟩
    exact (recognise_ok hi).1 ▸ opcode_mem_opset i
  · intro h
    simp only [Config.opset, List.mem_cons, List.not_mem_nil, or_false] at h
    rcases h with rfl | rfl | rfl | rfl | rfl | rfl | rfl | rfl | rfl | rfl | rfl | rfl <;>
      exact ⟨_, rfl⟩

/-- A decoded instruction's operand is an address (spec/30_encoding.md R58). -/
theorem decode_ok_address {w : Int} {i : Instr} (h : decode w = .ok i) :
    ∃ a : Address, (a.val : Int) = i.operand := by
  obtain ⟨hc, hx⟩ := decode_ok h
  have hw : 0 ≤ w := by
    by_contra hneg
    have := opcodeOf_nonpos (w := w) (Int.le_of_lt (Int.not_le.mp hneg))
    have := opcode_pos i
    omega
  have hr := operandOf_range hw
  rw [hx]
  exact ⟨⟨(operandOf w).toNat, by simp; omega⟩, by simp; omega⟩

end Sys2Proof
end

