-- ==== Sys2Proof/Laws/State.lean ====
section
/-! SUPPORT. One lemma per field per update of the state, each true by rfl. -/

namespace Sys2Proof.Machine

@[simp] theorem writeMem_mem (a : Address) (v : Int) (s : State) : (writeMem a v s).mem = s.mem.write a v := rfl
@[simp] theorem writeMem_acc (a : Address) (v : Int) (s : State) : (writeMem a v s).acc = s.acc := rfl
@[simp] theorem writeMem_ip (a : Address) (v : Int) (s : State) : (writeMem a v s).ip = s.ip := rfl
@[simp] theorem writeMem_status (a : Address) (v : Int) (s : State) : (writeMem a v s).status = s.status := rfl
@[simp] theorem writeMem_input (a : Address) (v : Int) (s : State) : (writeMem a v s).input = s.input := rfl
@[simp] theorem writeMem_out (a : Address) (v : Int) (s : State) : (writeMem a v s).out = s.out := rfl

@[simp] theorem setAcc_mem (v : Int) (s : State) : (setAcc v s).mem = s.mem := rfl
@[simp] theorem setAcc_acc (v : Int) (s : State) : (setAcc v s).acc = v := rfl
@[simp] theorem setAcc_ip (v : Int) (s : State) : (setAcc v s).ip = s.ip := rfl
@[simp] theorem setAcc_status (v : Int) (s : State) : (setAcc v s).status = s.status := rfl
@[simp] theorem setAcc_input (v : Int) (s : State) : (setAcc v s).input = s.input := rfl
@[simp] theorem setAcc_out (v : Int) (s : State) : (setAcc v s).out = s.out := rfl

@[simp] theorem jump_mem (a : Address) (s : State) : (jump a s).mem = s.mem := rfl
@[simp] theorem jump_acc (a : Address) (s : State) : (jump a s).acc = s.acc := rfl
@[simp] theorem jump_ip (a : Address) (s : State) : (jump a s).ip = a := rfl
@[simp] theorem jump_status (a : Address) (s : State) : (jump a s).status = s.status := rfl
@[simp] theorem jump_input (a : Address) (s : State) : (jump a s).input = s.input := rfl
@[simp] theorem jump_out (a : Address) (s : State) : (jump a s).out = s.out := rfl

@[simp] theorem stopRun_mem (s : State) : (stopRun s).mem = s.mem := rfl
@[simp] theorem stopRun_acc (s : State) : (stopRun s).acc = s.acc := rfl
@[simp] theorem stopRun_ip (s : State) : (stopRun s).ip = s.ip := rfl
@[simp] theorem stopRun_status (s : State) : (stopRun s).status = .halted := rfl
@[simp] theorem stopRun_input (s : State) : (stopRun s).input = s.input := rfl
@[simp] theorem stopRun_out (s : State) : (stopRun s).out = s.out := rfl

@[simp] theorem raise_mem (k : Fault) (s : State) : (raise k s).mem = s.mem := rfl
@[simp] theorem raise_acc (k : Fault) (s : State) : (raise k s).acc = s.acc := rfl
@[simp] theorem raise_ip (k : Fault) (s : State) : (raise k s).ip = s.ip := rfl
@[simp] theorem raise_status (k : Fault) (s : State) : (raise k s).status = .fault k := rfl
@[simp] theorem raise_input (k : Fault) (s : State) : (raise k s).input = s.input := rfl
@[simp] theorem raise_out (k : Fault) (s : State) : (raise k s).out = s.out := rfl

@[simp] theorem resetEvent_mem (input : List Int) (s : State) : (resetEvent input s).mem = s.mem := rfl
@[simp] theorem resetEvent_acc (input : List Int) (s : State) : (resetEvent input s).acc = 0 := rfl
@[simp] theorem resetEvent_ip (input : List Int) (s : State) : (resetEvent input s).ip = 0 := rfl
@[simp] theorem resetEvent_status (input : List Int) (s : State) : (resetEvent input s).status = .running := rfl
@[simp] theorem resetEvent_input (input : List Int) (s : State) : (resetEvent input s).input = input := rfl
@[simp] theorem resetEvent_out (input : List Int) (s : State) : (resetEvent input s).out = [] := rfl

@[simp] theorem emit_mem (v : Int) (s : State) : (emit v s).mem = s.mem := rfl
@[simp] theorem emit_acc (v : Int) (s : State) : (emit v s).acc = s.acc := rfl
@[simp] theorem emit_ip (v : Int) (s : State) : (emit v s).ip = s.ip := rfl
@[simp] theorem emit_status (v : Int) (s : State) : (emit v s).status = s.status := rfl
@[simp] theorem emit_input (v : Int) (s : State) : (emit v s).input = s.input := rfl
@[simp] theorem emit_out (v : Int) (s : State) : (emit v s).out = s.out ++ [v] := rfl

theorem advance_of_lt {s : State} (h : s.ip.val < Config.addrMax) :
    advance s = { s with ip := ⟨s.ip.val + 1, Nat.succ_lt_succ h⟩ } := dif_pos h

theorem advance_at_last {s : State} (h : ¬ s.ip.val < Config.addrMax) :
    advance s = raise .outOfRangeAddress s := dif_neg h

/-- All that the sequencer's advance can do (spec/40_cycle.md R75). -/
theorem advance_cases (s : State) :
    (∃ n : Address, n.val = s.ip.val + 1 ∧ advance s = { s with ip := n }) ∨
      (s.ip.val = Config.addrMax ∧ advance s = raise .outOfRangeAddress s) := by
  by_cases h : s.ip.val < Config.addrMax
  · exact .inl ⟨_, rfl, advance_of_lt h⟩
  · have := s.ip.isLt
    exact .inr ⟨by simp at h ⊢; omega, advance_at_last h⟩

/-- Below the last address the advance is the step to the next one. -/
theorem advance_to {s : State} {n : Address} (h : n.val = s.ip.val + 1) :
    advance s = { s with ip := n } := by
  have hlt : s.ip.val < Config.addrMax := by have := n.isLt; simp; omega
  have hn : n = ⟨s.ip.val + 1, Nat.succ_lt_succ hlt⟩ := Fin.ext h
  rw [advance_of_lt hlt, hn]

/-- At the last address the advance is the fault. -/
theorem advance_fault {s : State} (h : s.ip.val = 99) : advance s = raise .outOfRangeAddress s :=
  advance_at_last (by simp [h])

/-- Whether an advance faults or not, an advance from below 99 differs from it in IP and STATUS alone:
the effect of the instruction before it stands (spec/60_exceptions.md R156). -/
theorem advance_elsewhere {s : State} {m n : Address} (hs : s.status = .running)
    (h : n.val = m.val + 1) :
    advance { s with ip := m } = { advance s with ip := n, status := .running } := by
  have hm : advance { s with ip := m } = { s with ip := n } := advance_to (s := { s with ip := m }) h
  obtain ⟨_, -, ha⟩ | ⟨-, ha⟩ := advance_cases s
  · rw [hm, ha, ← hs]
  · rw [hm, ha, ← hs]
    rfl

@[simp] theorem advance_mem (s : State) : (advance s).mem = s.mem := by
  obtain ⟨n, -, h⟩ | ⟨-, h⟩ := advance_cases s
  · rw [h]
  · rw [h]; rfl

@[simp] theorem advance_acc (s : State) : (advance s).acc = s.acc := by
  obtain ⟨n, -, h⟩ | ⟨-, h⟩ := advance_cases s
  · rw [h]
  · rw [h]; rfl

@[simp] theorem advance_input (s : State) : (advance s).input = s.input := by
  obtain ⟨n, -, h⟩ | ⟨-, h⟩ := advance_cases s
  · rw [h]
  · rw [h]; rfl

@[simp] theorem advance_out (s : State) : (advance s).out = s.out := by
  obtain ⟨n, -, h⟩ | ⟨-, h⟩ := advance_cases s
  · rw [h]
  · rw [h]; rfl

end Sys2Proof.Machine
end

