-- ==== Sys2Proof/Laws/Ops.lean ====
section
/-! SUPPORT. One lemma for each shared operation that says everything it can do. -/

namespace Sys2Proof.Machine

/-- What the address decoder admits: the operand itself, and only 0 to 99 (spec/20_memory.md R31,
R35). -/
theorem addressOf_eq_some {x : Int} {a : Address} : addressOf x = some a ↔ (a.val : Int) = x := by
  unfold addressOf
  have := a.isLt
  split
  · next h =>
    rw [Option.some.injEq, Fin.ext_iff]
    exact ⟨fun e => by rw [← e]; exact Int.toNat_of_nonneg h.1, fun e => by subst e; simp⟩
  · next h =>
    simp only [reduceCtorEq, false_iff]
    simp at h
    omega

theorem addressOf_eq_none {x : Int} : addressOf x = none ↔ ¬ (0 ≤ x ∧ x ≤ Config.addrMax) := by
  unfold addressOf
  split
  · next h => simp only [reduceCtorEq, h, and_self, not_true_eq_false]
  · next h => simp only [h, not_false_eq_true]

theorem withAddress_some {x : Int} {a : Address} (h : addressOf x = some a) (s : State)
    (operation : Address → State) : withAddress x s operation = .next (operation a) := by
  unfold withAddress
  rw [h]

theorem withAddress_none {x : Int} (h : addressOf x = none) (s : State)
    (operation : Address → State) :
    withAddress x s operation = .next (raise .outOfRangeAddress s) := by
  unfold withAddress
  rw [h]

theorem finishArithmetic_inRange {r : Int} (h : InRange r) (s : State) :
    finishArithmetic r s = advance (setAcc r s) := if_pos h

theorem finishArithmetic_overflow {r : Int} (h : ¬ InRange r) (s : State) :
    finishArithmetic r s = raise .overflow s := if_neg h

theorem branchIf_taken {p : Prop} [Decidable p] (h : p) (a : Address) (s : State) :
    branchIf p a s = jump a s := if_pos h

theorem branchIf_not_taken {p : Prop} [Decidable p] (h : ¬ p) (a : Address) (s : State) :
    branchIf p a s = advance s := if_neg h

/-- The magnitude of a quotient is at most the dividend's, so that DIVIDE needs no range test. -/
theorem natAbs_quotient_le (dividend divisor : Int) :
    (quotient dividend divisor).natAbs ≤ dividend.natAbs := by
  unfold quotient
  rw [Int.natAbs_tdiv]
  exact Nat.div_le_self _ _

end Sys2Proof.Machine
end

