-- ==== Sys2Proof/Laws/Exec.lean ====
section
/-! SUPPORT. What one instruction and one step can do, said once: every later proof takes the cases
from here instead of unfolding `exec` and `step`. -/

namespace Sys2Proof.Machine

/-- The states an instruction with the address `a` as its operand can lead to from `s`, a constructor
for each way (spec/40_cycle.md R78). -/
inductive Effect (s : State) (a : Address) : Instr → State → Prop where
  | readTakes {x v rest} (h : s.input = v :: rest) :
      Effect s a (.read x) (advance { s with mem := s.mem.write a v, input := rest })
  | readWaits {x} (h : s.input = []) : Effect s a (.read x) s
  | write {x} : Effect s a (.write x) (advance (emit (s.mem.read a) s))
  | load {x} : Effect s a (.load x) (advance (setAcc (s.mem.read a) s))
  | store {x} : Effect s a (.store x) (advance (writeMem a s.acc s))
  | add {x} (h : InRange (s.acc + s.mem.read a)) :
      Effect s a (.add x) (advance (setAcc (s.acc + s.mem.read a) s))
  | addOverflow {x} (h : ¬ InRange (s.acc + s.mem.read a)) :
      Effect s a (.add x) (raise .overflow s)
  | subtract {x} (h : InRange (s.acc - s.mem.read a)) :
      Effect s a (.subtract x) (advance (setAcc (s.acc - s.mem.read a) s))
  | subtractOverflow {x} (h : ¬ InRange (s.acc - s.mem.read a)) :
      Effect s a (.subtract x) (raise .overflow s)
  | divide {x} (h : s.mem.read a ≠ 0) :
      Effect s a (.divide x) (advance (setAcc (quotient s.acc (s.mem.read a)) s))
  | divideByZero {x} (h : s.mem.read a = 0) : Effect s a (.divide x) (raise .divideByZero s)
  | multiply {x} (h : InRange (s.acc * s.mem.read a)) :
      Effect s a (.multiply x) (advance (setAcc (s.acc * s.mem.read a) s))
  | multiplyOverflow {x} (h : ¬ InRange (s.acc * s.mem.read a)) :
      Effect s a (.multiply x) (raise .overflow s)
  | branch {x} : Effect s a (.branch x) (jump a s)
  | branchnegTaken {x} (h : s.acc < 0) : Effect s a (.branchneg x) (jump a s)
  | branchnegNotTaken {x} (h : ¬ s.acc < 0) : Effect s a (.branchneg x) (advance s)
  | branchzeroTaken {x} (h : s.acc = 0) : Effect s a (.branchzero x) (jump a s)
  | branchzeroNotTaken {x} (h : s.acc ≠ 0) : Effect s a (.branchzero x) (advance s)
  | halt {x} : Effect s a (.halt x) (stopRun s)

/-- With an operand that is an address, an instruction goes on to a state of `Effect`. -/
theorem exec_effect {i : Instr} {a : Address} (h : addressOf i.operand = some a) (s : State) :
    ∃ t, exec i s = .next t ∧ Effect s a i t := by
  cases i with
  | read x =>
    cases hin : s.input with
    | nil => exact ⟨s, (withAddress_some h s _).trans (by simp [takeInput, hin]), .readWaits hin⟩
    | cons v rest =>
      exact ⟨_, (withAddress_some h s _).trans (by simp [takeInput, hin, writeMem]), .readTakes hin⟩
  | write x => exact ⟨_, withAddress_some h s _, .write⟩
  | load x => exact ⟨_, withAddress_some h s _, .load⟩
  | store x => exact ⟨_, withAddress_some h s _, .store⟩
  | add x =>
    refine ⟨_, withAddress_some h s _, ?_⟩
    by_cases hr : InRange (s.acc + s.mem.read a)
    · exact (finishArithmetic_inRange hr s).symm ▸ .add hr
    · exact (finishArithmetic_overflow hr s).symm ▸ .addOverflow hr
  | subtract x =>
    refine ⟨_, withAddress_some h s _, ?_⟩
    by_cases hr : InRange (s.acc - s.mem.read a)
    · exact (finishArithmetic_inRange hr s).symm ▸ .subtract hr
    · exact (finishArithmetic_overflow hr s).symm ▸ .subtractOverflow hr
  | divide x =>
    refine ⟨_, withAddress_some h s _, ?_⟩
    by_cases hd : s.mem.read a = 0
    · exact (if_pos (c := readMem a s = 0) hd).symm ▸ .divideByZero hd
    · exact (if_neg (c := readMem a s = 0) hd).symm ▸ .divide hd
  | multiply x =>
    refine ⟨_, withAddress_some h s _, ?_⟩
    by_cases hr : InRange (s.acc * s.mem.read a)
    · exact (finishArithmetic_inRange hr s).symm ▸ .multiply hr
    · exact (finishArithmetic_overflow hr s).symm ▸ .multiplyOverflow hr
  | branch x => exact ⟨_, withAddress_some h s _, .branch⟩
  | branchneg x =>
    refine ⟨_, withAddress_some h s _, ?_⟩
    by_cases hn : s.acc < 0
    · exact (branchIf_taken hn a s).symm ▸ .branchnegTaken hn
    · exact (branchIf_not_taken hn a s).symm ▸ .branchnegNotTaken hn
  | branchzero x =>
    refine ⟨_, withAddress_some h s _, ?_⟩
    by_cases hz : s.acc = 0
    · exact (branchIf_taken hz a s).symm ▸ .branchzeroTaken hz
    · exact (branchIf_not_taken hz a s).symm ▸ .branchzeroNotTaken hz
  | halt x => exact ⟨_, withAddress_some h s _, .halt⟩

/-- With any other operand every instruction is the address decoder's fault (spec/20_memory.md R35). -/
theorem exec_operand_fault {i : Instr} (h : addressOf i.operand = none) (s : State) :
    exec i s = .next (raise .outOfRangeAddress s) := by
  cases i <;> exact withAddress_none h s _

theorem step_running {s : State} (hs : s.status = .running) :
    step s = match decode (fetch s) with
      | .error _ => .next (raise .invalidOpcode s)
      | .ok i => exec i s := by
  cases s
  cases hs
  rfl

theorem step_ok {s : State} {i : Instr} (hs : s.status = .running)
    (hi : decode (fetch s) = .ok i) : step s = exec i s := by
  rw [step_running hs, hi]

theorem step_error {s : State} {e : IllegalWord} (hs : s.status = .running)
    (he : decode (fetch s) = .error e) : step s = .next (raise .invalidOpcode s) := by
  rw [step_running hs, he]

/-- A terminal STATUS is final: the step rests (spec/40_cycle.md R77). -/
theorem step_terminal {s : State} (hs : s.terminal) : step s = .next s := by
  unfold step
  split
  · next h => exact absurd h hs
  · rfl
  · rfl

/-- All that a step can do: rest, reject an illegal word, or run the decoded instruction, whose
operand is always an address (spec/30_encoding.md R58). -/
theorem step_cases {s t : State} (h : step s = .next t) :
    (s.terminal ∧ t = s) ∨
      (s.status = .running ∧ (∃ e, decode (fetch s) = .error e) ∧ t = raise .invalidOpcode s) ∨
      (∃ i a, s.status = .running ∧ decode (fetch s) = .ok i ∧ addressOf i.operand = some a ∧
        Effect s a i t) := by
  by_cases hs : s.status = .running
  · cases hd : decode (fetch s) with
    | error e =>
      rw [step_error hs hd] at h
      cases h
      exact .inr (.inl ⟨hs, ⟨e, rfl⟩, rfl⟩)
    | ok i =>
      obtain ⟨a, ha⟩ := decode_ok_address hd
      obtain ⟨u, hu, he⟩ := exec_effect (addressOf_eq_some.mpr ha) s
      rw [step_ok hs hd, hu] at h
      cases h
      exact .inr (.inr ⟨i, a, hs, rfl, addressOf_eq_some.mpr ha, he⟩)
  · rw [step_terminal hs] at h
    cases h
    exact .inl ⟨hs, rfl⟩

end Sys2Proof.Machine
end

