-- ==== Sys2Proof/Laws/Memory.lean ====
section
/-! SUPPORT. The laws of the memory's list form: a read after a write, and that every memory
operation keeps the canonical form and the range of the words. -/

namespace Sys2Proof.Machine

theorem Memory.read_erase_same (m : Memory) (a : Address) :
    (m.erase a).read a = Config.defaultFill := by
  induction m with
  | nil => rfl
  | cons c m ih =>
    by_cases h : c.1 = a.val <;> simp_all [Memory.erase, Memory.read]

theorem Memory.read_erase_other (m : Memory) {a b : Address} (hab : b ≠ a) :
    (m.erase a).read b = m.read b := by
  have hval : b.val ≠ a.val := fun h => hab (Fin.ext h)
  induction m with
  | nil => rfl
  | cons c m ih =>
    by_cases h : c.1 = a.val
    · have : c.1 ≠ b.val := fun h' => hval (h'.symm.trans h)
      simp_all [Memory.erase, Memory.read]
    · simp_all [Memory.erase, Memory.read]

theorem Memory.read_insertCell_same (m : Memory) (a : Address) (v : Int)
    (hm : ∀ c ∈ m, c.1 ≠ a.val) : (Memory.insertCell (a.val, v) m).read a = v := by
  induction m with
  | nil => simp [Memory.insertCell, Memory.read]
  | cons c m ih =>
    have hc : c.1 ≠ a.val := hm c (by simp)
    have := ih fun d hd => hm d (by simp [hd])
    unfold Memory.insertCell
    split <;> simp [Memory.read, hc, this]

theorem Memory.read_insertCell_other (m : Memory) {a b : Address} (v : Int) (hab : b ≠ a) :
    (Memory.insertCell (a.val, v) m).read b = m.read b := by
  have hval : a.val ≠ b.val := fun h => hab (Fin.ext h.symm)
  induction m with
  | nil => simp [Memory.insertCell, Memory.read, hval]
  | cons c m ih =>
    unfold Memory.insertCell
    split <;> simp [Memory.read, hval, ih]

theorem Memory.erase_keys (m : Memory) (a : Address) : ∀ c ∈ m.erase a, c.1 ≠ a.val := by
  intro c hc
  simpa using (List.mem_filter.mp hc).2

/-- A read after a write to the same address gives the Word written. -/
theorem Memory.read_write_same (m : Memory) (a : Address) (v : Int) :
    (m.write a v).read a = v := by
  unfold Memory.write
  split
  · next h => rw [h, Memory.read_erase_same]
  · exact Memory.read_insertCell_same _ a v (Memory.erase_keys m a)

/-- A write leaves every other address alone. -/
theorem Memory.read_write_other (m : Memory) {a b : Address} (v : Int) (hab : b ≠ a) :
    (m.write a v).read b = m.read b := by
  unfold Memory.write
  split
  · exact Memory.read_erase_other m hab
  · rw [Memory.read_insertCell_other _ v hab, Memory.read_erase_other m hab]

theorem Memory.mem_insertCell {c d : Nat × Int} {m : Memory} :
    d ∈ Memory.insertCell c m ↔ d = c ∨ d ∈ m := by
  induction m with
  | nil => simp [Memory.insertCell]
  | cons e m ih =>
    unfold Memory.insertCell
    split
    · simp
    · simp only [List.mem_cons, ih]
      tauto

/-- Every cell of a written memory is the new one or one of the old ones. -/
theorem Memory.mem_write {m : Memory} {a : Address} {v : Int} {d : Nat × Int}
    (h : d ∈ m.write a v) : (d = (a.val, v) ∧ v ≠ Config.defaultFill) ∨ d ∈ m := by
  unfold Memory.write at h
  split at h
  · exact .inr (List.mem_of_mem_filter h)
  · next hv =>
    rcases Memory.mem_insertCell.mp h with rfl | h
    · exact .inl ⟨rfl, hv⟩
    · exact .inr (List.mem_of_mem_filter h)

theorem Memory.insertCell_pairwise {m : Memory} {c : Nat × Int}
    (hm : m.Pairwise fun d e => d.1 < e.1) (hc : ∀ d ∈ m, d.1 ≠ c.1) :
    (Memory.insertCell c m).Pairwise fun d e => d.1 < e.1 := by
  induction m with
  | nil => simp [Memory.insertCell]
  | cons e m ih =>
    have hm' := List.pairwise_cons.mp hm
    have he : e.1 ≠ c.1 := hc e (by simp)
    unfold Memory.insertCell
    split
    · next hlt =>
      refine List.pairwise_cons.mpr ⟨fun d hd => ?_, hm⟩
      rcases List.mem_cons.mp hd with rfl | hd
      · exact hlt
      · exact Nat.lt_trans hlt (hm'.1 d hd)
    · next hge =>
      refine List.pairwise_cons.mpr ⟨fun d hd => ?_, ih hm'.2 fun d hd => hc d (by simp [hd])⟩
      rcases Memory.mem_insertCell.mp hd with rfl | hd
      · omega
      · exact hm'.1 d hd

/-- A write keeps the canonical form. -/
theorem Memory.write_wf {m : Memory} (hm : m.wf) (a : Address) (v : Int) : (m.write a v).wf := by
  have herase : (m.erase a).Pairwise fun c d => c.1 < d.1 := hm.1.filter _
  refine ⟨?_, fun c hc => ?_⟩
  · unfold Memory.write
    split
    · exact herase
    · exact Memory.insertCell_pairwise herase (Memory.erase_keys m a)
  · rcases Memory.mem_write hc with ⟨rfl, hv⟩ | hc
    · exact ⟨a.isLt, hv⟩
    · exact hm.2 c hc

/-- A write of a Word keeps every listed word a Word. -/
theorem Memory.write_wordsInRange {m : Memory} (hm : m.WordsInRange) (a : Address) {v : Int}
    (hv : InRange v) : (m.write a v).WordsInRange := by
  intro c hc
  rcases Memory.mem_write hc with ⟨rfl, -⟩ | hc
  · exact hv
  · exact hm c hc

/-- A memory that lists Words reads as Words everywhere. -/
theorem Memory.read_inRange {m : Memory} (hm : m.WordsInRange) (a : Address) :
    InRange (m.read a) := by
  induction m with
  | nil => simp [Memory.read, InRange]
  | cons c m ih =>
    unfold Memory.read
    split
    · exact hm c (by simp)
    · exact ih fun d hd => hm d (by simp [hd])

/-- The loader's memory has the canonical form, its addresses from `n` on. -/
theorem Memory.ofWords_wf (n : Nat) (words : List Int) (hlen : n + words.length ≤ Config.memSize) :
    (Memory.ofWords n words).wf ∧ ∀ c ∈ Memory.ofWords n words, n ≤ c.1 := by
  induction words generalizing n with
  | nil => simp [Memory.ofWords, Memory.wf]
  | cons w words ih =>
    have hlen' : n + 1 + words.length ≤ Config.memSize := by simp at hlen ⊢; omega
    obtain ⟨⟨hpair, hcells⟩, hfrom⟩ := ih (n + 1) hlen'
    unfold Memory.ofWords
    split
    · exact ⟨⟨hpair, hcells⟩, fun c hc => Nat.le_of_succ_le (hfrom c hc)⟩
    · next hw =>
      refine ⟨⟨List.pairwise_cons.mpr ⟨fun c hc => hfrom c hc, hpair⟩, fun c hc => ?_⟩, fun c hc => ?_⟩
      · rcases List.mem_cons.mp hc with rfl | hc
        · exact ⟨by simp at hlen ⊢; omega, hw⟩
        · exact hcells c hc
      · rcases List.mem_cons.mp hc with rfl | hc
        · exact Nat.le_refl n
        · exact Nat.le_of_succ_le (hfrom c hc)

/-- The loader's memory lists Words if the program does. -/
theorem Memory.ofWords_wordsInRange (n : Nat) {words : List Int} (h : ∀ w ∈ words, InRange w) :
    (Memory.ofWords n words).WordsInRange := by
  induction words generalizing n with
  | nil => simp [Memory.ofWords, Memory.WordsInRange]
  | cons w words ih =>
    have ih' := ih (n + 1) fun v hv => h v (by simp [hv])
    unfold Memory.ofWords
    split
    · exact ih'
    · intro c hc
      rcases List.mem_cons.mp hc with rfl | hc
      · exact h _ (by simp)
      · exact ih' c hc

end Sys2Proof.Machine
end

