-- ==== Sys2Proof/Laws/PerInstr.lean ====
section
/-! SUPPORT. A law stated of every instruction, one lemma per constructor (LAWS.json): the encoded
word of a legal instruction lies in its row of the opcode map (spec/30_encoding.md R53). -/

namespace Sys2Proof.Laws

/-- The encoded word is one of the hundred words of the instruction's opcode. -/
def EncodedInRow.Statement (i : Instr) : Prop :=
  i.WellFormed → 100 * i.opcode ≤ encode i ∧ encode i ≤ 100 * i.opcode + 99

theorem encodedInRow_of_operand {i : Instr} : EncodedInRow.Statement i := by
  rintro ⟨h0, h1⟩
  simp only [Instr.operandNonneg, Instr.operandTwoDigits, Config.addrMax] at h0 h1
  simp only [encode, Config.radix]
  push_cast at h1
  constructor <;> omega

theorem EncodedInRow.read (x : Int) : EncodedInRow.Statement (.read x) := encodedInRow_of_operand

theorem EncodedInRow.write (x : Int) : EncodedInRow.Statement (.write x) := encodedInRow_of_operand

theorem EncodedInRow.load (x : Int) : EncodedInRow.Statement (.load x) := encodedInRow_of_operand

theorem EncodedInRow.store (x : Int) : EncodedInRow.Statement (.store x) := encodedInRow_of_operand

theorem EncodedInRow.add (x : Int) : EncodedInRow.Statement (.add x) := encodedInRow_of_operand

theorem EncodedInRow.subtract (x : Int) : EncodedInRow.Statement (.subtract x) := encodedInRow_of_operand

theorem EncodedInRow.divide (x : Int) : EncodedInRow.Statement (.divide x) := encodedInRow_of_operand

theorem EncodedInRow.multiply (x : Int) : EncodedInRow.Statement (.multiply x) := encodedInRow_of_operand

theorem EncodedInRow.branch (x : Int) : EncodedInRow.Statement (.branch x) := encodedInRow_of_operand

theorem EncodedInRow.branchneg (x : Int) : EncodedInRow.Statement (.branchneg x) := encodedInRow_of_operand

theorem EncodedInRow.branchzero (x : Int) : EncodedInRow.Statement (.branchzero x) := encodedInRow_of_operand

theorem EncodedInRow.halt (x : Int) : EncodedInRow.Statement (.halt x) := encodedInRow_of_operand

end Sys2Proof.Laws
end

