-- ==== Sys2Proof/Tests/Slice0.lean ====
section
/-! SUPPORT. The model's own tests: the WellFormed smoke tests, a decode test for every constructor from
the word the spec writes, single steps with the results of spec/95_test_vectors.md, and for every
statement with hypotheses a concrete state and operands that meet them. Expected results come from
spec/, never from the model. -/

namespace Sys2Proof.Tests

open Sys2Proof.Machine

/-- A running state with this memory, accumulator, instruction pointer and input. -/
def st (mem : Memory) (acc : Int) (ip : Address) (input : List Int) : State :=
  { mem := mem, acc := acc, ip := ip, status := .running, input := input, out := [] }

/-- The state a step answers. -/
def after (s : State) : Option State :=
  match step s with
  | .next t => some t
  | .fault _ => none
  | .refused _ => none

/-- ACC, IP and STATUS of the state a step answers. -/
def regs (s : State) : Option (Int × Nat × Status) :=
  (after s).map fun t => (t.acc, t.ip.val, t.status)

/-- One word of memory of the state a step answers. -/
def word (a : Address) (s : State) : Option Int := (after s).map fun t => t.mem.read a

/-! ## WellFormed refuses ill-formed terms (spec/30_encoding.md R51) -/

theorem test_wellFormed_refuses_negative_operand :
    ¬ (Instr.read (-1)).operandNonneg ∧ ¬ (Instr.read (-1)).WellFormed := by decide

theorem test_wellFormed_refuses_three_digit_operand :
    ¬ (Instr.halt 100).operandTwoDigits ∧ ¬ (Instr.halt 100).WellFormed := by decide

theorem test_wellFormed_admits_bounds :
    (Instr.store 0).WellFormed ∧ (Instr.store 99).WellFormed := by decide

/-! ## Decode: the words of R64 and the patterns of spec/opcode_table.json, written out bit by bit -/

theorem test_decode_read : decode 1007 = .ok (.read 7) ∧
    decodeTableWord 17 0b00001000000000111 = some (.read 7) := by decide

theorem test_decode_write : decode 1109 = .ok (.write 9) ∧
    decodeTableWord 17 0b00001000100001001 = some (.write 9) := by decide

theorem test_decode_load : decode 2007 = .ok (.load 7) ∧
    decodeTableWord 17 0b00010000000000111 = some (.load 7) := by decide

theorem test_decode_store : decode 2199 = .ok (.store 99) ∧
    decodeTableWord 17 0b00010000110011001 = some (.store 99) := by decide

theorem test_decode_add : decode 3008 = .ok (.add 8) ∧
    decodeTableWord 17 0b00011000000001000 = some (.add 8) := by decide

theorem test_decode_subtract : decode 3108 = .ok (.subtract 8) ∧
    decodeTableWord 17 0b00011000100001000 = some (.subtract 8) := by decide

theorem test_decode_divide : decode 3208 = .ok (.divide 8) ∧
    decodeTableWord 17 0b00011001000001000 = some (.divide 8) := by decide

theorem test_decode_multiply : decode 3399 = .ok (.multiply 99) ∧
    decodeTableWord 17 0b00011001110011001 = some (.multiply 99) := by decide

theorem test_decode_branch : decode 4000 = .ok (.branch 0) ∧
    decodeTableWord 17 0b00100000000000000 = some (.branch 0) := by decide

theorem test_decode_branchneg : decode 4107 = .ok (.branchneg 7) ∧
    decodeTableWord 17 0b00100000100000111 = some (.branchneg 7) := by decide

theorem test_decode_branchzero : decode 4299 = .ok (.branchzero 99) ∧
    decodeTableWord 17 0b00100001010011001 = some (.branchzero 99) := by decide

theorem test_decode_halt : decode 4300 = .ok (.halt 0) ∧ decode 4399 = .ok (.halt 99) ∧
    decodeTableWord 17 0b00100001100000000 = some (.halt 0) := by decide

theorem test_decode_illegal : decode 7 = .error (.unrecognisedOpcode 0) ∧
    decode 999 = .error (.unrecognisedOpcode 9) ∧ decode 1200 = .error (.unrecognisedOpcode 12) ∧
    decode 3400 = .error (.unrecognisedOpcode 34) ∧ decode 9999 = .error (.unrecognisedOpcode 99) := by
  decide

/-- Negative words are illegal (R55, R64). -/
theorem test_decode_negative : decode (-99) = .error (.unrecognisedOpcode 0) ∧
    decode (-1007) = .error (.unrecognisedOpcode (-10)) ∧ operandOf (-1007) = -7 ∧
    decode (-4300) = .error (.unrecognisedOpcode (-43)) := by decide

/-- Patterns that are no Word (R63): a digit above 9, minus zero, a bit above the sign. -/
theorem test_tableWord_not_a_word : wordOfTableBits 17 0x0100a = none ∧
    wordOfTableBits 17 0x10000 = none ∧ wordOfTableBits 24 0x21007 = none := by decide

/-- The written form (R62): the rule's own example. -/
theorem test_listing : listingLine 3 (Instr.add 8).listing = "03: ADD 08" ∧
    (Instr.halt 0).listing = "HALT" ∧ dataListing (-5) = "DATA -5" := by decide

/-! ## Single steps (spec/95_test_vectors.md; the vector's number is in the name) -/

theorem test_read_V1 : word 7 (st [(0, 1007)] 0 0 [5, 3]) = some 5 ∧
    (after (st [(0, 1007)] 0 0 [5, 3])).map State.input = some [3] := by decide

theorem test_read_V6 : regs (st [(99, 1098)] 0 99 [12]) = some (0, 99, .fault .outOfRangeAddress) ∧
    word 98 (st [(99, 1098)] 0 99 [12]) = some 12 := by decide

theorem test_read_V3_waits : after (st [(0, 1000)] 0 0 []) = some (st [(0, 1000)] 0 0 []) := by decide

theorem test_write_V9 : regs (st [(5, 1109), (9, -42)] 7 5 []) = some (7, 6, .running) ∧
    (after (st [(5, 1109), (9, -42)] 7 5 [])).map State.out = some [-42] := by decide

theorem test_write_V10 : regs (st [(99, 1199)] 0 99 []) = some (0, 99, .fault .outOfRangeAddress) ∧
    (after (st [(99, 1199)] 0 99 [])).map State.out = some [1199] := by decide

theorem test_load_V13 : regs (st [(2, 2099), (99, -9999)] 1 2 []) = some (-9999, 3, .running) := by
  decide

theorem test_store_V15 : word 4 (st [(4, 2104)] 4300 4 []) = some 4300 ∧
    regs (st [(4, 2104)] 4300 4 []) = some (4300, 5, .running) := by decide

theorem test_store_V17 : regs (st [(0, 4099), (99, 2100)] 0 99 []) =
      some (0, 99, .fault .outOfRangeAddress) ∧
    (after (st [(0, 4099), (99, 2100)] 0 99 [])).map State.mem = some [(99, 2100)] := by decide

theorem test_add_V21 : regs (st [(3, 3008), (8, 1)] 9998 3 []) = some (9999, 4, .running) := by decide

theorem test_add_V23 : regs (st [(3, 3008), (8, -1)] (-9999) 3 []) =
    some (-9999, 3, .fault .overflow) := by decide

theorem test_subtract_V28 : regs (st [(3, 3108), (8, 7)] 3 3 []) = some (-4, 4, .running) := by decide

theorem test_subtract_V32 : regs (st [(3, 3108), (8, -1)] 9999 3 []) =
    some (9999, 3, .fault .overflow) := by decide

theorem test_divide_V34 : regs (st [(3, 3208), (8, 2)] (-7) 3 []) = some (-3, 4, .running) := by decide

theorem test_divide_by_zero_at_99 : regs (st [(99, 3250)] 6 99 []) =
    some (6, 99, .fault .divideByZero) := by decide

theorem test_multiply_V39c : regs (st [(3, 3308), (8, 101)] 99 3 []) = some (9999, 4, .running) := by
  decide

theorem test_multiply_V39e : regs (st [(3, 3308), (8, 100)] (-100) 3 []) =
    some (-100, 3, .fault .overflow) := by decide

theorem test_branch_V43 : regs (st [(99, 4001)] 0 99 []) = some (0, 1, .running) := by decide

theorem test_branchneg_V44_V46 : regs (st [(4, 4107)] (-4) 4 []) = some (-4, 7, .running) ∧
    regs (st [(4, 4107)] 0 4 []) = some (0, 5, .running) := by decide

theorem test_branchneg_V49 : regs (st [(99, 4199)] 0 99 []) =
    some (0, 99, .fault .outOfRangeAddress) := by decide

theorem test_branchzero_V47_V48a : regs (st [(2, 4210)] 0 2 []) = some (0, 10, .running) ∧
    regs (st [(2, 4210)] (-5) 2 []) = some (-5, 3, .running) := by decide

theorem test_halt_V51 : regs (st [(6, 4377)] 0 6 []) = some (0, 6, .halted) ∧
    (after (st [(6, 4377)] 0 6 [])).map State.mem = some [(6, 4377)] := by decide

theorem test_halt_V53_rests :
    after { st [(6, 4377)] 8 6 [] with status := .halted } =
      some { st [(6, 4377)] 8 6 [] with status := .halted } := by decide

theorem test_illegal_V61 : regs (st [(0, -1007)] 0 0 [5]) = some (0, 0, .fault .invalidOpcode) ∧
    word 7 (st [(0, -1007)] 0 0 [5]) = some 0 := by decide

theorem test_reset_V60 : regs State.reset = some (0, 0, .fault .invalidOpcode) := by decide

theorem test_start_V65 : (start [7] { st [(3, 4)] 9 8 [] with status := .halted }).map State.ip =
    some 0 := by decide

/-- The fault codes of spec/60_exceptions.md R150. -/
theorem test_fault_codes : Fault.divideByZero.code = 1 ∧ Fault.invalidOpcode.code = 2 ∧
    Fault.outOfRangeAddress.code = 3 ∧ Fault.overflow.code = 4 := by decide

/-- The read-out is there once STATUS is terminal (spec/40_cycle.md R81). -/
theorem test_result : result (st [] 8 6 []) = none ∧
    (result { st [] 8 6 [] with status := .halted }).map RunResult.acc = some 8 := by decide

/-! ## Witnesses: the hypotheses of each statement are met together

`bounds` gives the operands and addresses at the ends of their ranges; the statements about one
instruction have the hypothesis `addressOf x = some a` and one of the clauses "below 99" and "at 99". -/

theorem witness_operand_bounds : addressOf 0 = some 0 ∧ addressOf 99 = some 99 ∧
    addressOf (-1) = none ∧ addressOf 100 = none := by decide

theorem witness_DecoderSplitsWordIntoOpcodeAndOperand :
    (0 ≤ (9999 : Int) ∧ (9999 : Int) ≤ 9999 ∧ opcodeOf 9999 = 99 ∧ operandOf 9999 = 99) ∧
    (-9999 ≤ (-9999 : Int) ∧ (-9999 : Int) < 0 ∧ opcodeOf (-9999) = -99 ∧ operandOf (-9999) = -99) ∧
    opcodeOf 0 = 0 ∧ opcodeOf (-1) = 0 ∧ operandOf (-1) = -1 := by decide

theorem witness_DecodeOfEncodeIsTheInstruction :
    (Instr.read 0).WellFormed ∧ (Instr.halt 99).WellFormed := by decide

theorem witness_EncodeOfDecodeIsTheWord : decode 1000 = .ok (.read 0) ∧ decode 4399 = .ok (.halt 99) := by
  decide

theorem witness_TableBitsStandForTheDecimalWord : wordOfTableBits 17 0x09999 = some 9999 ∧
    wordOfTableBits 17 0x19999 = some (-9999) ∧ wordOfTableBits 17 0x10000 = none := by decide

theorem witness_OperandOutsideMemoryRaisesOutOfRangeAddress :
    ¬ (Instr.branch (-1)).WellFormed ∧ ¬ (Instr.read 100).WellFormed := by decide

theorem witness_CanonicalMemoriesThatReadAlikeAreEqual :
    Memory.wf [(0, 1), (99, -1)] ∧
      ∀ a : Address, Memory.read [(0, 1), (99, -1)] a = Memory.read [(0, 1), (99, -1)] a :=
  ⟨by decide, fun _ => rfl⟩

theorem witness_ReadStoresTheNextInputWord : addressOf 99 = some 99 ∧ (st [] 0 0 []).input = [] ∧
    (st [] 0 98 [5]).input = 5 :: [] ∧ (99 : Address).val = (st [] 0 98 [5]).ip.val + 1 ∧
    (st [] 0 99 [5]).ip.val = 99 := by decide

theorem witness_WriteEmitsTheMemoryWord : addressOf 9 = some 9 ∧
    (99 : Address).val = (st [(9, 8)] 0 98 []).ip.val + 1 ∧ (st [(9, 8)] 0 99 []).ip.val = 99 := by decide

theorem witness_LoadSetsTheAccumulator : addressOf 0 = some 0 ∧
    (1 : Address).val = (st [(0, -9999)] 7 0 []).ip.val + 1 ∧ (st [] 7 99 []).ip.val = 99 := by decide

theorem witness_StoreWritesTheAccumulatorToMemory : addressOf 99 = some 99 ∧
    (99 : Address).val = (st [] 7 98 []).ip.val + 1 ∧ (st [] 7 99 []).ip.val = 99 := by decide

theorem witness_AddWritesTheExactSumOrOverflows : addressOf 8 = some 8 ∧
    (st [(8, 1)] 9998 3 []).acc + (st [(8, 1)] 9998 3 []).mem.read 8 = 9999 ∧
    9999 < (st [(8, 1)] 9999 3 []).acc + (st [(8, 1)] 9999 3 []).mem.read 8 ∧
    (4 : Address).val = (st [(8, 1)] 9998 3 []).ip.val + 1 := by decide

theorem witness_SubtractWritesTheExactDifferenceOrOverflows : addressOf 8 = some 8 ∧
    (st [(8, 9999)] 0 3 []).acc - (st [(8, 9999)] 0 3 []).mem.read 8 = -9999 ∧
    (st [(8, 1)] (-9999) 3 []).acc - (st [(8, 1)] (-9999) 3 []).mem.read 8 < -9999 := by decide

theorem witness_MultiplyWritesTheExactProductOrOverflows : addressOf 8 = some 8 ∧
    (st [(8, 101)] 99 3 []).acc * (st [(8, 101)] 99 3 []).mem.read 8 = 9999 ∧
    9999 < (st [(8, 100)] 100 3 []).acc * (st [(8, 100)] 100 3 []).mem.read 8 := by decide

theorem witness_DivideWritesTheQuotient : addressOf 8 = some 8 ∧
    (st [(8, -2)] 7 3 []).mem.read 8 ≠ 0 ∧ (4 : Address).val = (st [(8, -2)] 7 3 []).ip.val + 1 ∧
    (st [(8, -2)] 7 99 []).ip.val = 99 := by decide

theorem witness_QuotientIsRoundedTowardZero : (-2 : Int) ≠ 0 ∧ InRange (-9999) ∧
    quotient 7 (-2) = -3 ∧ quotient (-7) (-2) = 3 ∧ quotient (-9999) (-1) = 9999 := by decide

theorem witness_DivideByZeroFaultsAndNothingElseRaisesIt : addressOf 8 = some 8 ∧
    (st [(2, 3208)] 0 2 []).mem.read 8 = 0 ∧
    regs (st [(2, 3208)] 0 2 []) = some (0, 2, .fault .divideByZero) := by decide

theorem witness_BranchSetsIpToTheOperand : addressOf 3 = some 3 := by decide

theorem witness_BranchnegJumpsIfAccumulatorIsNegative : addressOf 7 = some 7 ∧
    (st [] (-1) 4 []).acc < 0 ∧ 0 ≤ (st [] 0 4 []).acc ∧ (5 : Address).val = (st [] 0 4 []).ip.val + 1 ∧
    (st [] 0 99 []).ip.val = 99 := by decide

theorem witness_BranchzeroJumpsIfAccumulatorIsZero : addressOf 10 = some 10 ∧
    (st [] 0 2 []).acc = 0 ∧ (st [] (-1) 2 []).acc ≠ 0 ∧ (3 : Address).val = (st [] 1 2 []).ip.val + 1 ∧
    (st [] 1 99 []).ip.val = 99 := by decide

theorem witness_HaltChangesStatusAlone : addressOf 77 = some 77 := by decide

/-- A BRANCH to itself, a BRANCHNEG and a BRANCHZERO at the boundary values of ACC, taken at 99. -/
theorem witness_BranchDoesNotAlsoIncrement : addressOf 8 = some 8 ∧ addressOf 99 = some 99 ∧
    (st [(8, 4008)] 0 8 []).status = .running ∧
    (st [(8, 4008)] 0 8 []).mem.read (st [(8, 4008)] 0 8 []).ip = 4000 + 8 ∧
    (8 : Address) = (st [(8, 4008)] 0 8 []).ip ∧
    ((st [(99, 4199)] (-1) 99 []).mem.read 99 = 4100 + 99 ∧ (st [(99, 4199)] (-1) 99 []).acc < 0) ∧
    ((st [(99, 4299)] 0 99 []).mem.read 99 = 4200 + 99 ∧ (st [(99, 4299)] 0 99 []).acc = 0) := by decide

theorem witness_StepRunsTheDecodedInstruction : (st [(0, 2099)] 0 0 []).status = .running ∧
    decode ((st [(0, 2099)] 0 0 []).mem.read 0) = .ok (.load 99) ∧ (Instr.load 99).WellFormed ∧
    (st [(0, 2099)] 0 0 []).mem.read 0 = encode (.load 99) := by decide

theorem witness_UnrecognisedOpcodeRaisesInvalidOpcode : (st [] 0 0 []).status = .running ∧
    ((st [(0, 4400)] 0 0 []).mem.read 0).tdiv 100 ∉ Config.opset ∧ (st [] 0 0 []).mem.read 0 ≤ 0 ∧
    regs (st [] 0 0 []) = some (0, 0, .fault .invalidOpcode) := by decide

theorem witness_TerminalStatusIsFinal :
    ({ st [] 0 0 [] with status := .halted } : State).status ≠ .running ∧
    ({ st [] 0 0 [] with status := .fault .overflow } : State).status ≠ .running := by decide

/-- For the statements about a step of a running core: a STORE, a WRITE, a LOAD, a READ and a fault. -/
theorem witness_CycleChangesAtMostOneOfMemoryAccAndOut :
    (after (st [(0, 2105)] 7 0 [])).map (fun t => t.mem.read 5) = some 7 ∧
    (after (st [(0, 1100)] 7 0 [])).map State.out = some [1100] ∧
    (after (st [(0, 2000)] 7 0 [])).map State.acc = some 2000 ∧
    (after (st [(0, 1005)] 7 0 [9])).map State.input = some [] := by decide

theorem witness_IpIsHeldAdvancedOrTheBranchTarget :
    (after (st [(0, 4300)] 7 0 [])).map State.ip = some 0 ∧
    (after (st [(98, 2000)] 7 98 [])).map State.ip = some 99 ∧
    (after (st [(0, 4099)] 7 0 [])).map State.ip = some 99 := by decide

theorem witness_EveryStepKeepsTheWordInvariant : (st [(0, 1005)] 9999 0 [-9999]).Inv ∧
    (after (st [(0, 1005)] 9999 0 [-9999])).isSome := by decide

theorem witness_EveryLaunchedRunKeepsTheWordInvariant :
    launch [1005, 4300] [7] = some (st [(0, 1005), (1, 4300)] 0 0 [7]) ∧
    core.run 2 (st [(0, 1005), (1, 4300)] 0 0 [7]) =
      .next { st [(0, 1005), (1, 4300), (5, 7)] 0 1 [] with status := .halted } :=
  ⟨by decide, rfl⟩

/-- An overflow, and at 99 a LOAD, whose effect stands, and the same LOAD from address 98. -/
theorem witness_FaultsArePrecise :
    regs (st [(3, 3008), (8, 1)] 9999 3 []) = some (9999, 3, .fault .overflow) ∧
    regs (st [(99, 2099)] 0 99 []) = some (2099, 99, .fault .outOfRangeAddress) ∧
    decode ((st [(99, 2099)] 0 99 []).mem.read 99) = .ok (.load 99) ∧
    (99 : Address).val = (98 : Address).val + 1 := by decide

theorem witness_OverflowComesOnlyFromAnOutOfRangeResult :
    (st [(3, 3308), (8, 9999)] 9999 3 []).status = .running ∧
    regs (st [(3, 3308), (8, 9999)] 9999 3 []) = some (9999, 3, .fault .overflow) := by decide

theorem witness_OnlyHaltEndsARunSuccessfully : (st [(6, 4300)] 8 6 []).status = .running ∧
    regs (st [(6, 4300)] 8 6 []) = some (8, 6, .halted) := by decide

theorem witness_BlockedReadResumesWhenAWordIsSupplied : (st [(1, 1006)] 0 1 []).status = .running ∧
    (st [(1, 1006)] 0 1 []).mem.read 1 = 1000 + 6 ∧ addressOf 6 = some 6 ∧
    (st [(1, 1006)] 0 1 []).input = [] ∧ InRange 2 ∧
    (2 : Address).val = (st [(1, 1006)] 0 1 []).ip.val + 1 := by decide

theorem witness_OutputIsNeverReadBack :
    (after { st [(5, 1105)] 0 5 [] with out := [] }).isSome ∧
    (after { st [(5, 1105)] 0 5 [] with out := [1] }).map State.out = some [1, 1105] := by decide

theorem witness_InputIsNeverLookedAtAhead : ¬ (st [(0, 1005)] 0 0 [1]).blocked ∧
    (after (st [(0, 1005)] 0 0 [1])).isSome := by decide

theorem witness_StoredWordIsTheNextInstruction : addressOf 5 = some 5 ∧
    (5 : Address).val = (st [(4, 2105)] 77 4 []).ip.val + 1 ∧
    (st [(4, 2105)] 77 4 []).mem.read 4 = 2100 + 5 ∧ (st [(4, 1005)] 0 4 [4300]).mem.read 4 = 1000 + 5 ∧
    (st [(4, 1005)] 0 4 [4300]).input = 4300 :: [] := by decide

theorem witness_EnvironmentCannotTouchARunningCore : (st [] 0 0 []).status = .running ∧
    ({ st [] 0 0 [] with status := .halted } : State).status ≠ .running ∧
    (∀ w ∈ [5, 3], InRange w) ∧ InRange (-9999) := by decide

theorem witness_NewRunStartsFromTheMemoryThatWasLeft :
    ({ st [(9, 2)] 2 6 [] with status := .fault .overflow } : State).status ≠ .running ∧
    (∀ w ∈ [5, -3], InRange w) ∧ InRange 9999 := by decide

theorem witness_LaunchLoadsTheProgramFromAddressZero :
    ([1007, 0, 4300] : List Int).length ≤ 100 ∧ (∀ w ∈ [1007, 0, 4300], InRange w) ∧
    (∀ w ∈ [9999], InRange w) ∧ (∃ w ∈ [10000], ¬ InRange w) ∧
    (List.replicate 100 (-9999 : Int)).length ≤ 100 ∧
    (∀ w ∈ List.replicate 100 (-9999 : Int), InRange w) ∧
    100 < (List.replicate 101 (0 : Int)).length :=
  ⟨by decide, by decide, by decide, ⟨10000, by decide, by decide⟩, by decide,
    fun _ h => (List.eq_of_mem_replicate h).symm ▸ by decide, by decide⟩

theorem witness_WithFetchWordMakesItTheNextInstruction :
    decodeTableWord 24 0x04300 = some (.halt 0) ∧
    regs (State.reset.withFetchWord 24 0x04300) = some (0, 0, .halted) := by decide

end Sys2Proof.Tests
end

/-! The ranges of the decoder's opcode and operand (spec/30_encoding.md R52). The two functions are odd,
so the ranges for a Word below 0 are the mirror image of the ranges for a Word of at least 0. -/

namespace Sys2Proof

theorem opcodeOf_neg (w : Int) : opcodeOf (-w) = -opcodeOf w := Int.neg_tdiv w 100

theorem operandOf_neg (w : Int) : operandOf (-w) = -operandOf w := Int.neg_tmod w 100

/-- The opcode of a Word of at least 0 has at most two digits. -/
theorem opcodeOf_range {w : Int} (h0 : 0 ≤ w) (h1 : w ≤ 9999) :
    0 ≤ opcodeOf w ∧ opcodeOf w ≤ 99 := by
  have hsplit := opcodeOf_operandOf w
  obtain ⟨hlo, hhi⟩ := operandOf_range h0
  omega

theorem opcodeOf_range_of_nonpos {w : Int} (h0 : -9999 ≤ w) (h1 : w ≤ 0) :
    -99 ≤ opcodeOf w ∧ opcodeOf w ≤ 0 := by
  have hmirror := opcodeOf_range (w := -w) (by omega) (by omega)
  rw [opcodeOf_neg] at hmirror
  omega

theorem operandOf_range_of_nonpos {w : Int} (h : w ≤ 0) : -99 ≤ operandOf w ∧ operandOf w ≤ 0 := by
  have hmirror := operandOf_range (w := -w) (by omega)
  rw [operandOf_neg] at hmirror
  omega

/-- Settles O1: the pair is the definition of the decoder, and the ranges below 0 mirror those from 0. -/
theorem decoderSplitsWordIntoOpcodeAndOperand :
    Obligations.DecoderSplitsWordIntoOpcodeAndOperand := by
  unfold Obligations.DecoderSplitsWordIntoOpcodeAndOperand
  intro w
  refine ⟨rfl, rfl, rfl, fun h0 h1 => ?nonneg, fun h0 h1 => ?neg⟩
  case nonneg => exact ⟨opcodeOf_range h0 h1, operandOf_range h0⟩
  case neg =>
    have hw : w ≤ 0 := Int.le_of_lt h1
    exact ⟨opcodeOf_range_of_nonpos h0 hw, operandOf_range_of_nonpos hw⟩

end Sys2Proof

/-! A taken branch (spec/40_cycle.md R74, spec/44_control.md R130 to R132): each of the three branch
instructions, when taken, jumps to its operand; the sequencer adds nothing. -/

namespace Sys2Proof.Machine

/-- The decoder gives an encoded instruction back if its operand is an address (spec/30_encoding.md
R60). -/
theorem decode_encode_of_address {i : Instr} {a : Address} (h : addressOf i.operand = some a) :
    decode (encode i) = .ok i := by
  have ha := addressOf_eq_some.mp h
  have hc := opcode_pos i
  obtain ⟨hop, hx⟩ := split_compose (c := i.opcode) (x := i.operand) (by omega) (by omega) (by omega)
  calc decode (encode i) = recognise i.opcode i.operand := congrArg₂ recognise hop hx
    _ = .ok i := recognise_opcode i

/-- A running core whose word at IP is an encoded instruction runs that instruction (spec/40_cycle.md
R78). -/
theorem step_of_encoded {s : State} {i : Instr} {a : Address} (hs : s.status = .running)
    (h : addressOf i.operand = some a) (hw : s.mem.read s.ip = encode i) : step s = exec i s :=
  step_ok hs ((congrArg decode hw).trans (decode_encode_of_address h))

theorem exec_branch {x : Int} {a : Address} (h : addressOf x = some a) (s : State) :
    exec (.branch x) s = .next (jump a s) := withAddress_some h s _

theorem exec_branchneg_taken {x : Int} {a : Address} {s : State} (h : addressOf x = some a)
    (hacc : s.acc < 0) : exec (.branchneg x) s = .next (jump a s) :=
  (withAddress_some h s _).trans (congrArg _ (branchIf_taken hacc a s))

theorem exec_branchzero_taken {x : Int} {a : Address} {s : State} (h : addressOf x = some a)
    (hacc : s.acc = 0) : exec (.branchzero x) s = .next (jump a s) :=
  (withAddress_some h s _).trans (congrArg _ (branchIf_taken hacc a s))

/-- The step of a running core at any of the three taken branches. -/
theorem step_taken_branch {x : Int} {a : Address} {s : State} (hs : s.status = .running)
    (h : addressOf x = some a)
    (hw : s.mem.read s.ip = 4000 + x ∨ (s.mem.read s.ip = 4100 + x ∧ s.acc < 0) ∨
      (s.mem.read s.ip = 4200 + x ∧ s.acc = 0)) : step s = .next (jump a s) := by
  obtain hbranch | ⟨hneg, hacc⟩ | ⟨hzero, hacc⟩ := hw
  · exact (step_of_encoded (i := .branch x) hs h hbranch).trans (exec_branch h s)
  · exact (step_of_encoded (i := .branchneg x) hs h hneg).trans (exec_branchneg_taken h hacc)
  · exact (step_of_encoded (i := .branchzero x) hs h hzero).trans (exec_branchzero_taken h hacc)

@[simp] theorem fetch_jump (a : Address) (s : State) : fetch (jump a s) = s.mem.read a := rfl

@[simp] theorem jump_self (s : State) : jump s.ip s = s := rfl

end Sys2Proof.Machine

namespace Sys2Proof

open Machine

/-- Settles O25: the step at a taken branch is a jump, and a jump to IP itself is a fixed point of the
step, so that every run ends where it began. -/
theorem branchDoesNotAlsoIncrement : Obligations.BranchDoesNotAlsoIncrement := by
  unfold Obligations.BranchDoesNotAlsoIncrement
  intro x a s hs h hw
  have hstep : step s = .next (jump a s) := step_taken_branch hs h hw
  refine ⟨hstep, fetch_jump a s, fun hself => run_of_fixed ?_⟩
  rw [hstep, hself, jump_self]

end Sys2Proof

/-! WRITE (spec/41_io.md R91): the emission of a memory word and the sequencer's advance, whatever the
advance does. It never waits for its sink, by the spec's decision D10. -/

namespace Sys2Proof.Machine

theorem exec_write {x : Int} {a : Address} (h : addressOf x = some a) (s : State) :
    exec (.write x) s = .next (advance (emit (s.mem.read a) s)) := withAddress_some h s _

end Sys2Proof.Machine

namespace Sys2Proof

open Machine

/-- Settles O12: WRITE is the advance from the state that has emitted the word, whose IP is that of the
state before, so that the advance is the step to the next address or, at 99, the fault. -/
theorem writeEmitsTheMemoryWord : Obligations.WriteEmitsTheMemoryWord := by
  unfold Obligations.WriteEmitsTheMemoryWord
  intro x a s h
  refine ⟨decode_encode_of_address (i := .write x) h, fun n hn => ?below, fun hlast => ?at_last⟩
  case below =>
    have hadvance := advance_to (s := emit (s.mem.read a) s) hn
    exact (exec_write h s).trans (congrArg _ hadvance)
  case at_last =>
    have hfault := advance_fault (s := emit (s.mem.read a) s) hlast
    exact (exec_write h s).trans (congrArg _ hfault)

end Sys2Proof

/-! LOAD and STORE (spec/42_load_store.md R100, R101): each is its one effect and then the sequencer's
advance, from a state whose IP is still that of the state before. -/

namespace Sys2Proof.Machine

theorem exec_load {x : Int} {a : Address} (h : addressOf x = some a) (s : State) :
    exec (.load x) s = .next (advance (setAcc (s.mem.read a) s)) := withAddress_some h s _

theorem exec_store {x : Int} {a : Address} (h : addressOf x = some a) (s : State) :
    exec (.store x) s = .next (advance (writeMem a s.acc s)) := withAddress_some h s _

/-- A write sets the word at its address and no other (spec/20_memory.md R34). -/
theorem Memory.read_write (m : Memory) (a b : Address) (v : Int) :
    (m.write a v).read b = if b = a then v else m.read b := by
  split
  case isTrue hab => exact hab ▸ m.read_write_same a v
  case isFalse hab => exact m.read_write_other v hab

/-- Below 99 the advance steps IP to the next address and keeps STATUS (spec/40_cycle.md R75). -/
theorem advance_ip_status_below {s : State} {n : Address} (h : n.val = s.ip.val + 1) :
    (advance s).ip = n ∧ (advance s).status = s.status := by
  rw [advance_to h]
  exact ⟨rfl, rfl⟩

/-- At 99 the advance keeps IP and faults (spec/40_cycle.md R75). -/
theorem advance_ip_status_last {s : State} (h : s.ip.val = 99) :
    (advance s).ip = s.ip ∧ (advance s).status = .fault .outOfRangeAddress := by
  rw [advance_fault h]
  exact ⟨rfl, rfl⟩

/-- What the end common to READ and STORE does to memory, whatever the advance does. -/
theorem read_advance_writeMem (a b : Address) (v : Int) (s : State) :
    (advance (writeMem a v s)).mem.read b = if b = a then v else s.mem.read b := by
  rw [advance_mem, writeMem_mem, Memory.read_write]

end Sys2Proof.Machine

namespace Sys2Proof

open Machine

/-- Settles O13: LOAD is the advance from the state whose ACC is the memory word, which is the step to
the next address or, at 99, the fault. -/
theorem loadSetsTheAccumulator : Obligations.LoadSetsTheAccumulator := by
  unfold Obligations.LoadSetsTheAccumulator
  intro x a s h
  refine ⟨decode_encode_of_address (i := .load x) h, fun n hn => ?below, fun hlast => ?at_last⟩
  case below =>
    have hadvance := advance_to (s := setAcc (s.mem.read a) s) hn
    exact (exec_load h s).trans (congrArg _ hadvance)
  case at_last =>
    have hfault := advance_fault (s := setAcc (s.mem.read a) s) hlast
    exact (exec_load h s).trans (congrArg _ hfault)

/-- Settles O14: STORE answers the advance from the state whose memory has been written; the advance
moves IP or STATUS alone, and the write sets one word. -/
theorem storeWritesTheAccumulatorToMemory : Obligations.StoreWritesTheAccumulatorToMemory := by
  unfold Obligations.StoreWritesTheAccumulatorToMemory
  intro x a s h
  refine ⟨decode_encode_of_address (i := .store x) h, advance (writeMem a s.acc s), exec_store h s,
    fun b => read_advance_writeMem a b s.acc s, ?acc, ?input, ?out, fun n hn => ?below,
    fun hlast => ?at_last⟩
  case acc => rw [advance_acc, writeMem_acc]
  case input => rw [advance_input, writeMem_input]
  case out => rw [advance_out, writeMem_out]
  case below => exact advance_ip_status_below (s := writeMem a s.acc s) hn
  case at_last => exact advance_ip_status_last (s := writeMem a s.acc s) hlast

end Sys2Proof

/-! BRANCH, BRANCHNEG and BRANCHZERO (spec/44_control.md R130 to R132): a taken branch is the jump, a
conditional branch not taken is the sequencer's advance and nothing else. -/

namespace Sys2Proof.Machine

theorem exec_branchneg_not_taken {x : Int} {a : Address} {s : State} (h : addressOf x = some a)
    (hacc : 0 ≤ s.acc) : exec (.branchneg x) s = .next (advance s) :=
  (withAddress_some h s _).trans (congrArg _ (branchIf_not_taken (Int.not_lt.mpr hacc) a s))

theorem exec_branchzero_not_taken {x : Int} {a : Address} {s : State} (h : addressOf x = some a)
    (hacc : s.acc ≠ 0) : exec (.branchzero x) s = .next (advance s) :=
  (withAddress_some h s _).trans (congrArg _ (branchIf_not_taken hacc a s))

end Sys2Proof.Machine

namespace Sys2Proof

open Machine

/-- Settles O21: BRANCH is the jump to its operand, from every state. -/
theorem branchSetsIpToTheOperand : Obligations.BranchSetsIpToTheOperand := by
  unfold Obligations.BranchSetsIpToTheOperand
  intro x a s h
  exact ⟨decode_encode_of_address (i := .branch x) h, exec_branch h s⟩

/-- Settles O22: taken, BRANCHNEG is the jump; not taken, it is the advance, which is the step to the
next address or, at 99, the fault. -/
theorem branchnegJumpsIfAccumulatorIsNegative :
    Obligations.BranchnegJumpsIfAccumulatorIsNegative := by
  unfold Obligations.BranchnegJumpsIfAccumulatorIsNegative
  intro x a s h
  refine ⟨decode_encode_of_address (i := .branchneg x) h, fun hacc => ?taken,
    fun hacc => ⟨fun n hn => ?below, fun hlast => ?at_last⟩⟩
  case taken => exact exec_branchneg_taken h hacc
  case below => exact (exec_branchneg_not_taken h hacc).trans (congrArg _ (advance_to hn))
  case at_last => exact (exec_branchneg_not_taken h hacc).trans (congrArg _ (advance_fault hlast))

/-- Settles O23: taken, BRANCHZERO is the jump; not taken, for ACC of either sign, it is the advance,
which is the step to the next address or, at 99, the fault. -/
theorem branchzeroJumpsIfAccumulatorIsZero : Obligations.BranchzeroJumpsIfAccumulatorIsZero := by
  unfold Obligations.BranchzeroJumpsIfAccumulatorIsZero
  intro x a s h
  refine ⟨decode_encode_of_address (i := .branchzero x) h, fun hacc => ?taken,
    fun hacc => ⟨fun n hn => ?below, fun hlast => ?at_last⟩⟩
  case taken => exact exec_branchzero_taken h hacc
  case below => exact (exec_branchzero_not_taken h hacc).trans (congrArg _ (advance_to hn))
  case at_last => exact (exec_branchzero_not_taken h hacc).trans (congrArg _ (advance_fault hlast))

end Sys2Proof

/-! What raises a fault (spec/60_exceptions.md R150 to R154): the causes of a fault taken by an
instruction, and the step's own cause, an illegal word. -/

namespace Sys2Proof

/-- The decoder rejects a Word exactly if its opcode is not recognised (spec/30_encoding.md R55). -/
theorem decode_error_iff {w : Int} : (∃ e, decode w = .error e) ↔ opcodeOf w ∉ Config.opset := by
  constructor
  · rintro ⟨e, he⟩ hmem
    obtain ⟨i, hi⟩ : ∃ i, decode w = .ok i := recognise_ok_iff.mpr hmem
    rw [he] at hi
    cases hi
  · exact fun hmem => ⟨_, recognise_error hmem⟩

/-- No Word of at most 0 has a recognised opcode (spec/30_encoding.md R55). -/
theorem opcodeOf_not_mem_opset_of_nonpos {w : Int} (h : w ≤ 0) : opcodeOf w ∉ Config.opset := by
  intro hmem
  have hpos : ∀ c ∈ Config.opset, 0 < c := by decide
  exact Int.not_lt.mpr (opcodeOf_nonpos h) (hpos _ hmem)

end Sys2Proof

namespace Sys2Proof.Machine

/-- What must hold for an instruction with the address `a` as its operand to raise a fault in `s`, a
constructor for each cause; `lastAddress` does not say which instructions advance. None is a cause of
`InvalidOpcode`, which is raised before any instruction runs (spec/60_exceptions.md R152). -/
inductive FaultCause (s : State) (a : Address) : Instr → Fault → Prop where
  | zeroDivisor {x} (h : s.mem.read a = 0) : FaultCause s a (.divide x) .divideByZero
  | sum {x} (h : ¬ InRange (s.acc + s.mem.read a)) : FaultCause s a (.add x) .overflow
  | difference {x} (h : ¬ InRange (s.acc - s.mem.read a)) : FaultCause s a (.subtract x) .overflow
  | product {x} (h : ¬ InRange (s.acc * s.mem.read a)) : FaultCause s a (.multiply x) .overflow
  | lastAddress {i} (h : s.ip.val = 99) : FaultCause s a i .outOfRangeAddress

/-- The sequencer's advance of a running core faults only at 99 (spec/60_exceptions.md R153). -/
theorem FaultCause.of_advance {s u : State} {a : Address} {i : Instr} {k : Fault}
    (hk : (advance u).status = .fault k) (hu : u.status = .running) (hip : u.ip = s.ip) :
    FaultCause s a i k := by
  obtain ⟨n, -, hadv⟩ | ⟨hlast, hadv⟩ := advance_cases u
  · rw [hadv] at hk
    cases hu.symm.trans hk
  · rw [hadv] at hk
    cases hk
    exact .lastAddress (hip ▸ hlast)

/-- A fault that an instruction leads to has one of the causes, by the cases of its effect. -/
theorem Effect.faultCause {s t : State} {a : Address} {i : Instr} {k : Fault} (h : Effect s a i t)
    (hs : s.status = .running) (hk : t.status = .fault k) : FaultCause s a i k := by
  cases h with
  | readTakes | write | load | store | add | subtract | divide | multiply | branchnegNotTaken
  | branchzeroNotTaken => exact .of_advance hk hs rfl
  | readWaits | branch | branchnegTaken | branchzeroTaken => cases hs.symm.trans hk
  | halt => cases hk
  | divideByZero h => cases hk; exact .zeroDivisor h
  | addOverflow h => cases hk; exact .sum h
  | subtractOverflow h => cases hk; exact .difference h
  | multiplyOverflow h => cases hk; exact .product h

/-- All the ways in which the step of a running core leads to a fault. -/
theorem step_fault_cases {s t : State} {k : Fault} (hs : s.status = .running)
    (h : step s = .next t) (hk : t.status = .fault k) :
    (k = .invalidOpcode ∧ ∃ e, decode (fetch s) = .error e) ∨
      ∃ i a, decode (fetch s) = .ok i ∧ addressOf i.operand = some a ∧ FaultCause s a i k := by
  obtain ⟨hterminal, -⟩ | ⟨-, herror, rfl⟩ | ⟨i, a, -, hi, ha, heffect⟩ := step_cases h
  · exact absurd hs hterminal
  · cases hk
    exact .inl ⟨rfl, herror⟩
  · exact .inr ⟨i, a, hi, ha, heffect.faultCause hs hk⟩

theorem exec_divide_zero {x : Int} {a : Address} {s : State} (h : addressOf x = some a)
    (hzero : s.mem.read a = 0) : exec (.divide x) s = .next (raise .divideByZero s) :=
  (withAddress_some h s _).trans (congrArg _ (if_pos hzero))

/-- A running core rejects an unrecognised opcode before any other effect (spec/60_exceptions.md
R152). -/
theorem step_unrecognised {s : State} (hs : s.status = .running)
    (h : opcodeOf (fetch s) ∉ Config.opset) : step s = .next (raise .invalidOpcode s) :=
  step_error hs (recognise_error h)

end Sys2Proof.Machine

namespace Sys2Proof

open Machine

/-- Settles O20: of all the causes of a fault, the zero divisor alone is one of `DivideByZero`. -/
theorem divideByZeroFaultsAndNothingElseRaisesIt :
    Obligations.DivideByZeroFaultsAndNothingElseRaisesIt := by
  unfold Obligations.DivideByZeroFaultsAndNothingElseRaisesIt
  refine ⟨fun x a s h hzero => exec_divide_zero h hzero, fun s t hs hstep hk => ?_⟩
  obtain ⟨hinvalid, -⟩ | ⟨i, a, hi, ha, hcause⟩ := step_fault_cases hs hstep hk
  · cases hinvalid
  · cases hcause with
    | zeroDivisor hzero => exact ⟨_, a, hi, ha, hzero⟩

/-- Settles O27: the step rejects an unrecognised opcode, which every Word of at most 0 has, and no
cause of an instruction's fault is one of `InvalidOpcode`. -/
theorem unrecognisedOpcodeRaisesInvalidOpcode :
    Obligations.UnrecognisedOpcodeRaisesInvalidOpcode := by
  unfold Obligations.UnrecognisedOpcodeRaisesInvalidOpcode
  intro s hs
  refine ⟨fun hop => step_unrecognised hs hop,
    fun hw => step_unrecognised hs (opcodeOf_not_mem_opset_of_nonpos hw), fun t hstep hk => ?_⟩
  obtain ⟨-, herror⟩ | ⟨i, a, -, -, hcause⟩ := step_fault_cases hs hstep hk
  · exact decode_error_iff.mp herror
  · cases hcause

end Sys2Proof

/-! The reset event (spec/70_reset_and_hazards.md R180 to R184): what the environment's start and load
port answer between two runs, and the state a new run begins in. -/

namespace Sys2Proof.Machine

/-- The reset event keeps memory and nothing else (spec/70_reset_and_hazards.md R184): it answers the
launched state of the memory that was left. -/
theorem resetEvent_eq_launched (input : List Int) (s : State) :
    resetEvent input s = State.launched s.mem input := rfl

@[simp] theorem fetch_resetEvent (input : List Int) (s : State) :
    fetch (resetEvent input s) = s.mem.read 0 := rfl

/-- While STATUS is not Running, start is the reset event (spec/70_reset_and_hazards.md R180). -/
theorem start_of_terminal {s : State} {input : List Int} (hs : s.status ≠ .running)
    (hinput : ∀ w ∈ input, InRange w) : start input s = some (resetEvent input s) :=
  if_pos ⟨hs, hinput⟩

/-- While STATUS is not Running, the load port is the write of one word (spec/10_state.md R23). -/
theorem loadWord_of_terminal {s : State} {a : Address} {v : Int} (hs : s.status ≠ .running)
    (hv : InRange v) : loadWord a v s = some (writeMem a v s) := if_pos ⟨hs, hv⟩

end Sys2Proof.Machine

namespace Sys2Proof

open Machine

/-- Settles O46: start is the reset event, which keeps memory alone; the load port leaves STATUS
terminal, so that start follows it, and sets one word of memory. -/
theorem newRunStartsFromTheMemoryThatWasLeft : Obligations.NewRunStartsFromTheMemoryThatWasLeft := by
  unfold Obligations.NewRunStartsFromTheMemoryThatWasLeft
  intro s input a v hs hinput hv
  have hloaded : (writeMem a v s).status ≠ .running := hs
  refine ⟨?as_left, writeMem a v s, resetEvent input (writeMem a v s), loadWord_of_terminal hs hv,
    start_of_terminal hloaded hinput, fun b => ?rewritten, rfl, rfl, rfl, rfl, rfl⟩
  case as_left => rw [start_of_terminal hs hinput, resetEvent_eq_launched]
  case rewritten => rw [resetEvent_mem, writeMem_mem, Memory.read_write]

/-- Settles O43: each element is the one the reset event writes, or memory, which it keeps. -/
theorem resetEventStartsARunAtAddressZero : Obligations.ResetEventStartsARunAtAddressZero := by
  unfold Obligations.ResetEventStartsARunAtAddressZero
  intro s input
  have hip : (resetEvent input s).ip.val = 0 := congrArg Fin.val (resetEvent_ip input s)
  exact ⟨resetEvent_acc input s, hip, resetEvent_status input s, resetEvent_out input s,
    resetEvent_input input s, fun b => congrArg (·.read b) (resetEvent_mem input s),
    fetch_resetEvent input s⟩

end Sys2Proof

/-! Encoding and decode (spec/30_encoding.md R55, R60, R63): the decoder and the encoder are each other's
inverse on the legal instructions, and the table's bits stand for the Word they write out. -/

namespace Sys2Proof

/-- The opcodes of a Word, read the other way: a positive opcode has a hundred consecutive Words. -/
theorem opcodeOf_eq_iff {c w : Int} (hc : 0 < c) :
    opcodeOf w = c ↔ 100 * c ≤ w ∧ w ≤ 100 * c + 99 := by
  have hsplit := opcodeOf_operandOf w
  constructor
  · intro hop
    have hw : 0 ≤ w := by
      by_contra hneg
      have := opcodeOf_nonpos (w := w) (by omega)
      omega
    have := operandOf_range hw
    omega
  · intro hrow
    have := operandOf_range (w := w) (by omega)
    omega

/-- The encoded word of a legal instruction is a Word (spec/30_encoding.md R60). -/
theorem encode_inRange {i : Instr} (h : i.WellFormed) : InRange (encode i) := by
  obtain ⟨hlo, hhi⟩ := Laws.encodedInRow_of_operand h
  obtain ⟨hmin, hmax⟩ := opcode_pos i
  exact ⟨by simp only [Config.wordMin]; omega, by simp only [Config.wordMax]; omega⟩

theorem encode_of_decode {w : Int} {i : Instr} (h : decode w = .ok i) : encode i = w := by
  obtain ⟨hop, hx⟩ := decode_ok h
  calc encode i = opcodeOf w * 100 + operandOf w := by rw [encode, hop, hx]
    _ = w := opcodeOf_operandOf w

/-- A decoded instruction is legal: its operand is an address (spec/30_encoding.md R58). -/
theorem wellFormed_of_decode {w : Int} {i : Instr} (h : decode w = .ok i) : i.WellFormed := by
  obtain ⟨a, ha⟩ := decode_ok_address h
  have := a.isLt
  exact ⟨by rw [Instr.operandNonneg]; omega, by simp only [Instr.operandTwoDigits, Config.addrMax]; omega⟩

/-- The Word of a table pattern, from its sign and its four decimal digits (spec/30_encoding.md R63). -/
theorem wordOfTableBits_digits {sign d3 d2 d1 d0 : Nat} (hs : sign ≤ 1) (h3 : d3 ≤ 9) (h2 : d2 ≤ 9)
    (h1 : d1 ≤ 9) (h0 : d0 ≤ 9) :
    wordOfTableBits 17 (65536 * sign + 4096 * d3 + 256 * d2 + 16 * d1 + d0) =
      if sign = 0 then some ((1000 * d3 + 100 * d2 + 10 * d1 + d0 : Nat) : Int)
      else if 1000 * d3 + 100 * d2 + 10 * d1 + d0 = 0 then none
      else some (-((1000 * d3 + 100 * d2 + 10 * d1 + d0 : Nat) : Int)) := by
  generalize hpattern : 65536 * sign + 4096 * d3 + 256 * d2 + 16 * d1 + d0 = bits
  have hbits : bits % 2 ^ 17 = bits := Nat.mod_eq_of_lt (by omega)
  have hsign : bits / 65536 = sign := by omega
  have hd3 : bits / 4096 % 16 = d3 := by omega
  have hd2 : bits / 256 % 16 = d2 := by omega
  have hd1 : bits / 16 % 16 = d1 := by omega
  have hd0 : bits % 16 = d0 := by omega
  have hdigits : ¬ (9 < d3 ∨ 9 < d2 ∨ 9 < d1 ∨ 9 < d0) := by omega
  simp only [wordOfTableBits, hbits, hsign, hd3, hd2, hd1, hd0, if_neg hdigits]
  obtain rfl | rfl : sign = 0 ∨ sign = 1 := by omega
  · rfl
  · simp only [true_and, ne_eq, ite_not]

/-- What a table pattern decodes to comes from a Word that the decoder accepts. -/
theorem decodeTableWord_eq_some {nbits w : Nat} {i : Instr} (h : decodeTableWord nbits w = some i) :
    ∃ v, wordOfTableBits nbits w = some v ∧ decode v = .ok i := by
  unfold decodeTableWord at h
  split at h
  · cases h
  · next v hv =>
    refine ⟨v, hv, ?_⟩
    cases hd : decode v with
    | error e => rw [hd] at h; cases h
    | ok j => rw [hd] at h; cases h; rfl

end Sys2Proof

namespace Sys2Proof.Machine

/-- A legal instruction's operand is an address (spec/20_memory.md R35). -/
theorem address_of_wellFormed {i : Instr} (h : i.WellFormed) :
    ∃ a, addressOf i.operand = some a :=
  Option.ne_none_iff_exists'.mp fun hnone => addressOf_eq_none.mp hnone h

theorem decode_encode {i : Instr} (h : i.WellFormed) : decode (encode i) = .ok i := by
  obtain ⟨a, ha⟩ := address_of_wellFormed h
  exact decode_encode_of_address ha

end Sys2Proof.Machine

namespace Sys2Proof

open Machine

/-- Settles O3: a legal operand is an address, and opcode and operand can be split again. -/
theorem decodeOfEncodeIsTheInstruction : Obligations.DecodeOfEncodeIsTheInstruction := by
  unfold Obligations.DecodeOfEncodeIsTheInstruction
  exact fun i h => ⟨decode_encode h, encode_inRange h⟩

/-- Settles O4: the decoder keeps the Word's opcode and operand, of which the Word is made up. -/
theorem encodeOfDecodeIsTheWord : Obligations.EncodeOfDecodeIsTheWord := by
  unfold Obligations.EncodeOfDecodeIsTheWord
  exact fun w i h => ⟨encode_of_decode h, wellFormed_of_decode h⟩

/-- Settles O5: the decoder accepts a Word exactly if its opcode is in OPSET, and each opcode of OPSET
has a row of a hundred Words. -/
theorem legalWordsAreExactlyTheTwelveHundred : Obligations.LegalWordsAreExactlyTheTwelveHundred := by
  unfold Obligations.LegalWordsAreExactlyTheTwelveHundred
  intro w
  have hop : (∃ i, decode w = .ok i) ↔ opcodeOf w ∈ Config.opset := recognise_ok_iff
  simp only [hop, Config.opset, List.mem_cons, List.not_mem_nil, or_false, opcodeOf_eq_iff, Int.reduceLT]
  omega

/-- Settles O6: the pattern's digits are the decimal digits of the Word, under either sign. -/
theorem tableBitsStandForTheDecimalWord : Obligations.TableBitsStandForTheDecimalWord := by
  unfold Obligations.TableBitsStandForTheDecimalWord
  intro d3 d2 d1 d0 h3 h2 h1 h0
  refine ⟨?plus, ?minus⟩
  case plus =>
    have hword := wordOfTableBits_digits (sign := 0) (by decide) h3 h2 h1 h0
    simpa using hword
  case minus =>
    have hword := wordOfTableBits_digits (sign := 1) (by decide) h3 h2 h1 h0
    have hzero : 1000 * d3 + 100 * d2 + 10 * d1 + d0 = 0 ↔ d3 + d2 + d1 + d0 = 0 := by omega
    simp only [hzero] at hword
    simpa using hword

/-- Settles O2: closed words, each decoded by evaluation. -/
theorem decodeAgreesWithTheSpecsVectors : Obligations.DecodeAgreesWithTheSpecsVectors := by
  unfold Obligations.DecodeAgreesWithTheSpecsVectors
  decide

end Sys2Proof

/-! The invariant of spec/10_state.md R24: each operation keeps it, so that every effect of an
instruction, every step and every launched run does. -/

namespace Sys2Proof.Machine

/-- The quotient of a Word is a Word, since its magnitude is at most the dividend's (spec/43_arithmetic.md
R113). -/
theorem quotient_inRange {n : Int} (h : InRange n) (d : Int) : InRange (quotient n d) := by
  have hle := natAbs_quotient_le n d
  simp only [InRange, Config.wordMin, Config.wordMax] at h ⊢
  omega

theorem advance_inv {s : State} (h : s.Inv) : (advance s).Inv := by
  simpa only [State.Inv, advance_mem, advance_acc, advance_input, advance_out] using h

theorem setAcc_inv {s : State} (h : s.Inv) {v : Int} (hv : InRange v) : (setAcc v s).Inv := by
  obtain ⟨hwf, hwords, -, hinput, hout⟩ := h
  exact ⟨hwf, hwords, hv, hinput, hout⟩

theorem writeMem_inv {s : State} (h : s.Inv) (a : Address) {v : Int} (hv : InRange v) :
    (writeMem a v s).Inv := by
  obtain ⟨hwf, hwords, hrest⟩ := h
  exact ⟨Memory.write_wf hwf a v, Memory.write_wordsInRange hwords a hv, hrest⟩

theorem emit_inv {s : State} (h : s.Inv) {v : Int} (hv : InRange v) : (emit v s).Inv := by
  obtain ⟨hwf, hwords, hacc, hinput, hout⟩ := h
  refine ⟨hwf, hwords, hacc, hinput, fun w hw => ?_⟩
  rcases List.mem_append.mp hw with hw | hw
  · exact hout w hw
  · exact List.mem_singleton.mp hw ▸ hv

/-- A Word taken from INPUT is a Word, and the port's rest still holds Words. -/
theorem takeInput_inv {s : State} (h : s.Inv) {v : Int} {rest : List Int} (hin : s.input = v :: rest) :
    InRange v ∧ ({ s with input := rest } : State).Inv := by
  obtain ⟨hwf, hwords, hacc, hinput, hout⟩ := h
  rw [hin] at hinput
  obtain ⟨hv, hrest⟩ := List.forall_mem_cons.mp hinput
  exact ⟨hv, hwf, hwords, hacc, hrest, hout⟩

theorem Effect.inv {s t : State} {a : Address} {i : Instr} (h : Effect s a i t) (hs : s.Inv) :
    t.Inv := by
  have ⟨_, hwords, hacc, _, _⟩ := hs
  have hread : InRange (s.mem.read a) := Memory.read_inRange hwords a
  cases h with
  | readTakes hin =>
    obtain ⟨hv, htaken⟩ := takeInput_inv hs hin
    exact advance_inv (writeMem_inv htaken a hv)
  | write => exact advance_inv (emit_inv hs hread)
  | load => exact advance_inv (setAcc_inv hs hread)
  | store => exact advance_inv (writeMem_inv hs a hacc)
  | add hr | subtract hr | multiply hr => exact advance_inv (setAcc_inv hs hr)
  | divide => exact advance_inv (setAcc_inv hs (quotient_inRange hacc _))
  | branchnegNotTaken | branchzeroNotTaken => exact advance_inv hs
  | readWaits | addOverflow | subtractOverflow | multiplyOverflow | divideByZero | branch
  | branchnegTaken | branchzeroTaken | halt => exact hs

theorem step_inv {s t : State} (hs : s.Inv) (h : step s = .next t) : t.Inv := by
  obtain ⟨-, rfl⟩ | ⟨-, -, rfl⟩ | ⟨i, a, -, -, -, heffect⟩ := step_cases h
  · exact hs
  · exact hs
  · exact heffect.inv hs

/-- No step stops the model (notes/assumptions/1.md): it rests, rejects, or runs an instruction whose
operand is an address. -/
theorem step_total (s : State) : ∃ t, step s = .next t := by
  by_cases hs : s.status = .running
  · cases hd : decode (fetch s) with
    | error e => exact ⟨_, step_error hs hd⟩
    | ok i =>
      obtain ⟨a, ha⟩ := decode_ok_address hd
      obtain ⟨t, ht, -⟩ := exec_effect (addressOf_eq_some.mpr ha) s
      exact ⟨t, (step_ok hs hd).trans ht⟩
  · exact ⟨s, step_terminal hs⟩

/-- What every step keeps, every run keeps. -/
theorem run_keeps {P : State → Prop} (hstep : ∀ s t, P s → step s = .next t → P t) {s t : State}
    {k : Nat} (hs : P s) (h : core.run k s = .next t) : P t := by
  induction k generalizing s with
  | zero =>
    rw [run_zero] at h
    cases h
    exact hs
  | succ k ih =>
    obtain ⟨u, hu⟩ := step_total s
    rw [run_succ hu] at h
    exact ih (hstep s u hs hu) h

/-- Where there is a launch, it is the reset with the loader's memory, of a program that fits and of Words
alone (spec/70_reset_and_hazards.md R183). -/
theorem launch_eq_some {program input : List Int} {s : State} :
    launch program input = some s ↔
      (program.length ≤ Config.memSize ∧ (∀ w ∈ program, InRange w) ∧ ∀ w ∈ input, InRange w) ∧
        State.launched (Memory.ofWords 0 program) input = s := by
  rw [launch, Option.ite_none_right_eq_some, Option.some.injEq]

theorem launched_inv {program input : List Int} (hlen : program.length ≤ Config.memSize)
    (hprogram : ∀ w ∈ program, InRange w) (hinput : ∀ w ∈ input, InRange w) :
    (State.launched (Memory.ofWords 0 program) input).Inv := by
  obtain ⟨hwf, -⟩ := Memory.ofWords_wf 0 program (by rwa [Nat.zero_add])
  exact ⟨hwf, Memory.ofWords_wordsInRange 0 hprogram, (by decide : InRange 0), hinput, List.forall_mem_nil _⟩

end Sys2Proof.Machine

namespace Sys2Proof

open Machine

/-- Settles O32: every effect of an instruction keeps the invariant; resting and rejecting change no
Word. -/
theorem everyStepKeepsTheWordInvariant : Obligations.EveryStepKeepsTheWordInvariant := by
  unfold Obligations.EveryStepKeepsTheWordInvariant
  exact fun s t hs h => step_inv hs h

/-- Settles O33: the reset state is the launch of the empty program without input. -/
theorem resetStateMeetsTheWordInvariant : Obligations.ResetStateMeetsTheWordInvariant := by
  unfold Obligations.ResetStateMeetsTheWordInvariant
  exact launched_inv (program := []) (input := []) (Nat.zero_le _) (List.forall_mem_nil _)
    (List.forall_mem_nil _)

/-- Settles O34: the launched state meets the invariant, and every step of the run keeps it. -/
theorem everyLaunchedRunKeepsTheWordInvariant :
    Obligations.EveryLaunchedRunKeepsTheWordInvariant := by
  unfold Obligations.EveryLaunchedRunKeepsTheWordInvariant
  intro program input s t k hlaunch hrun
  obtain ⟨⟨hlen, hprogram, hinput⟩, rfl⟩ := launch_eq_some.mp hlaunch
  exact run_keeps (fun _ _ => step_inv) (launched_inv hlen hprogram hinput) hrun

/-- Settles O29: `step_total`. -/
theorem everyStepAnswersANextState : Obligations.EveryStepAnswersANextState := by
  unfold Obligations.EveryStepAnswersANextState
  exact step_total

end Sys2Proof

/-! Memory (spec/20_memory.md R31 to R35): a later write to an address wins, the canonical form is one
for each content (notes/assumptions/6.md), and what the loader's memory reads as. -/

namespace Sys2Proof.Machine

theorem Memory.erase_erase (m : Memory) (a : Address) : (m.erase a).erase a = m.erase a := by
  simp only [Memory.erase, List.filter_filter, Bool.and_self]

theorem Memory.erase_insertCell (m : Memory) (a : Address) (v : Int) :
    (Memory.insertCell (a.val, v) m).erase a = m.erase a := by
  induction m with
  | nil => simp [Memory.insertCell, Memory.erase]
  | cons c m ih =>
    unfold Memory.insertCell
    split
    · simp [Memory.erase]
    · simp only [Memory.erase, List.filter_cons] at ih ⊢
      rw [ih]

/-- A write leaves nothing of what its address held. -/
theorem Memory.erase_write (m : Memory) (a : Address) (v : Int) : (m.write a v).erase a = m.erase a := by
  unfold Memory.write
  split
  · exact m.erase_erase a
  · rw [Memory.erase_insertCell, Memory.erase_erase]

theorem Memory.write_write (m : Memory) (a : Address) (u v : Int) :
    (m.write a u).write a v = m.write a v := by
  rw [Memory.write, Memory.erase_write, Memory.write]

/-- With strictly rising addresses, an address reads as the cell that lists it. -/
theorem Memory.read_eq_of_mem {m : Memory} (hm : m.Pairwise fun c d => c.1 < d.1) {a : Address} {v : Int}
    (h : (a.val, v) ∈ m) : m.read a = v := by
  induction m with
  | nil => cases h
  | cons c m ih =>
    obtain ⟨hfirst, hrest⟩ := List.pairwise_cons.mp hm
    rcases List.mem_cons.mp h with rfl | h
    · exact if_pos rfl
    · have hne : c.1 ≠ a.val := Nat.ne_of_lt (hfirst _ h)
      exact (if_neg hne).trans (ih hrest h)

/-- An address that does not read as the default fill is listed. -/
theorem Memory.mem_of_read_ne {m : Memory} {a : Address} (h : m.read a ≠ Config.defaultFill) :
    (a.val, m.read a) ∈ m := by
  induction m with
  | nil => exact absurd rfl h
  | cons c m ih =>
    unfold Memory.read at h ⊢
    split at h
    · next heq => simp [← heq]
    · next hne => simp [hne, ih h]

/-- The canonical form lists exactly the addresses that do not read as the default fill. -/
theorem Memory.mem_iff_of_wf {m : Memory} (hm : m.wf) (c : Nat × Int) :
    c ∈ m ↔ ∃ a : Address, m.read a ≠ Config.defaultFill ∧ (a.val, m.read a) = c := by
  obtain ⟨hpair, hcells⟩ := hm
  constructor
  · intro hc
    obtain ⟨hlt, hne⟩ := hcells c hc
    have hread : m.read ⟨c.1, hlt⟩ = c.2 := Memory.read_eq_of_mem hpair hc
    exact ⟨⟨c.1, hlt⟩, hread ▸ hne, hread ▸ rfl⟩
  · rintro ⟨a, hne, rfl⟩
    exact Memory.mem_of_read_ne hne

/-- Two memories in canonical form that read alike are the same: they list the same cells, in the same
order. -/
theorem Memory.eq_of_read_eq {m m' : Memory} (hm : m.wf) (hm' : m'.wf)
    (h : ∀ a : Address, m.read a = m'.read a) : m = m' := by
  have hasymm : Std.Antisymm fun c d : Nat × Int => c.1 < d.1 := ⟨fun _ _ h h' => absurd h' h.asymm⟩
  have hirrefl : Std.Irrefl fun c d : Nat × Int => c.1 < d.1 := ⟨fun _ => lt_irrefl _⟩
  refine hm.1.eq_of_mem_iff hm'.1 fun c => ?_
  simp only [Memory.mem_iff_of_wf hm, Memory.mem_iff_of_wf hm', h]

/-- The loader's memory is not filled below its first address. -/
theorem Memory.read_ofWords_below {n : Nat} (words : List Int) {a : Address} (h : a.val < n) :
    (Memory.ofWords n words).read a = Config.defaultFill := by
  induction words generalizing n with
  | nil => rfl
  | cons w words ih =>
    rw [Memory.ofWords]
    split
    · exact ih (Nat.lt_succ_of_lt h)
    · exact (if_neg h.ne').trans (ih (Nat.lt_succ_of_lt h))

/-- From its first address on, the loader's memory reads as the program's words, and as 0 past their end
(spec/70_reset_and_hazards.md R183). -/
theorem Memory.read_ofWords {n j : Nat} (words : List Int) {a : Address} (h : a.val = n + j) :
    (Memory.ofWords n words).read a = words.getD j 0 := by
  induction words generalizing n j with
  | nil => rfl
  | cons w words ih =>
    rw [Memory.ofWords]
    cases j with
    | zero =>
      split
      · next hw => exact (Memory.read_ofWords_below words (by omega)).trans hw.symm
      · exact if_pos h.symm
    | succ j =>
      have hrest := ih (n := n + 1) (j := j) (by omega)
      split
      · exact hrest
      · exact (if_neg (by simp only; omega)).trans hrest

end Sys2Proof.Machine

namespace Sys2Proof

open Machine

/-- Settles O7: what the address decoder admits, and its complement. -/
theorem addressDecoderAdmitsExactlyTheHundredAddresses :
    Obligations.AddressDecoderAdmitsExactlyTheHundredAddresses := by
  unfold Obligations.AddressDecoderAdmitsExactlyTheHundredAddresses
  intro x
  refine ⟨fun a => addressOf_eq_some, ?_⟩
  simp only [addressOf_eq_none, Config.addrMax]
  omega

/-- Settles O8: an operand that is not legal is no address, which every instruction's address decode
rejects. -/
theorem operandOutsideMemoryRaisesOutOfRangeAddress :
    Obligations.OperandOutsideMemoryRaisesOutOfRangeAddress := by
  unfold Obligations.OperandOutsideMemoryRaisesOutOfRangeAddress
  exact fun i s h => exec_operand_fault (addressOf_eq_none.mpr h) s

/-- Settles O9: the read after a write, and the write over a write. -/
theorem memoryWriteSetsOneWord : Obligations.MemoryWriteSetsOneWord := by
  unfold Obligations.MemoryWriteSetsOneWord
  exact fun m a u v => ⟨fun b => m.read_write a b v, m.write_write a u v⟩

/-- Settles O10: a canonical memory lists just what it reads as. -/
theorem canonicalMemoriesThatReadAlikeAreEqual :
    Obligations.CanonicalMemoriesThatReadAlikeAreEqual := by
  unfold Obligations.CanonicalMemoriesThatReadAlikeAreEqual
  exact fun m m' hm hm' h => Memory.eq_of_read_eq hm hm' h

/-- Settles O47: a launch is the reset with the loader's memory, and there is none outside its
conditions. -/
theorem launchLoadsTheProgramFromAddressZero : Obligations.LaunchLoadsTheProgramFromAddressZero := by
  unfold Obligations.LaunchLoadsTheProgramFromAddressZero
  intro program input
  refine ⟨fun hlen hprogram hinput => ?launched, fun hbad => ?none⟩
  case launched =>
    refine ⟨_, launch_eq_some.mpr ⟨⟨hlen, hprogram, hinput⟩, rfl⟩, rfl, rfl, rfl, rfl, rfl, fun a => ?_⟩
    exact Memory.read_ofWords program (Nat.zero_add _).symm
  case none =>
    refine Option.eq_none_iff_forall_ne_some.mpr fun s hs => ?_
    obtain ⟨⟨hlen, hprogram, hinput⟩, -⟩ := launch_eq_some.mp hs
    rcases hbad with hlong | ⟨w, hw, hrange⟩ | ⟨w, hw, hrange⟩
    · exact Nat.not_lt.mpr hlen hlong
    · exact hrange (hprogram w hw)
    · exact hrange (hinput w hw)

end Sys2Proof

/-! ADD, SUBTRACT, MULTIPLY and DIVIDE (spec/43_arithmetic.md R110 to R115): the first three end alike, in
the range test of the exact result. -/

namespace Sys2Proof.Machine

theorem exec_add {x : Int} {a : Address} (h : addressOf x = some a) (s : State) :
    exec (.add x) s = .next (finishArithmetic (s.acc + s.mem.read a) s) := withAddress_some h s _

theorem exec_subtract {x : Int} {a : Address} (h : addressOf x = some a) (s : State) :
    exec (.subtract x) s = .next (finishArithmetic (s.acc - s.mem.read a) s) := withAddress_some h s _

theorem exec_multiply {x : Int} {a : Address} (h : addressOf x = some a) (s : State) :
    exec (.multiply x) s = .next (finishArithmetic (s.acc * s.mem.read a) s) := withAddress_some h s _

theorem exec_divide {x : Int} {a : Address} {s : State} (h : addressOf x = some a)
    (hd : s.mem.read a ≠ 0) :
    exec (.divide x) s = .next (advance (setAcc (quotient s.acc (s.mem.read a)) s)) :=
  (withAddress_some h s _).trans (congrArg _ (if_neg hd))

/-- What an instruction does that ends in the advance with `r` in ACC. -/
theorem exec_advance_setAcc {i : Instr} {s : State} {r : Int}
    (h : exec i s = .next (advance (setAcc r s))) :
    (∀ n : Address, n.val = s.ip.val + 1 → exec i s = .next { s with acc := r, ip := n }) ∧
      (s.ip.val = 99 → exec i s = .next { s with acc := r, status := .fault .outOfRangeAddress }) :=
  ⟨fun _ hn => h.trans (congrArg _ (advance_to (s := setAcc r s) hn)),
    fun hlast => h.trans (congrArg _ (advance_fault (s := setAcc r s) hlast))⟩

/-- What an instruction does that ends in the range test of the exact result `r` (spec/43_arithmetic.md
R110). -/
theorem exec_finishArithmetic {i : Instr} {s : State} {r : Int}
    (h : exec i s = .next (finishArithmetic r s)) :
    (-9999 ≤ r → r ≤ 9999 →
      (∀ n : Address, n.val = s.ip.val + 1 → exec i s = .next { s with acc := r, ip := n }) ∧
      (s.ip.val = 99 → exec i s = .next { s with acc := r, status := .fault .outOfRangeAddress })) ∧
    (r < -9999 ∨ 9999 < r → exec i s = .next { s with status := .fault .overflow }) := by
  refine ⟨fun hmin hmax => ?inRange, fun hout => ?overflow⟩
  case inRange =>
    rw [finishArithmetic_inRange ⟨hmin, hmax⟩] at h
    exact exec_advance_setAcc h
  case overflow =>
    have hr : ¬ InRange r := fun ⟨hmin, hmax⟩ => hout.elim hmin.not_gt hmax.not_gt
    exact h.trans (congrArg _ (finishArithmetic_overflow hr s))

/-- The quotient as sign and magnitude: the magnitudes are divided, rounding down (spec/00_scope.md R7). -/
theorem quotient_eq_sign_mul (n d : Int) :
    quotient n d = n.sign * d.sign * ((n.natAbs / d.natAbs : Nat) : Int) := by
  have hsplit : (n.tdiv d).sign * ((n.natAbs / d.natAbs : Nat) : Int) = n.tdiv d := by
    have hmagnitude : (n.tdiv d).natAbs = n.natAbs / d.natAbs := Int.natAbs_tdiv n d
    rw [← hmagnitude, Int.sign_mul_natAbs]
  rw [quotient, ← hsplit, Int.sign_tdiv]
  split
  case isTrue hlt => simp [Nat.div_eq_of_lt hlt]
  case isFalse => rfl

/-- What the quotient leaves is the remainder of the division that rounds toward zero. -/
theorem sub_mul_quotient (n d : Int) : n - d * quotient n d = n.tmod d := (Int.tmod_def n d).symm

/-- The remainder is 0 or has the dividend's sign (spec/43_arithmetic.md R115). -/
theorem tmod_eq_zero_or_sign (n d : Int) : n.tmod d = 0 ∨ (n.tmod d).sign = n.sign := by
  rw [Int.sign_tmod]
  split
  case isTrue hdvd => exact .inl (Int.tmod_eq_zero_of_dvd hdvd)
  case isFalse => exact .inr rfl

end Sys2Proof.Machine

namespace Sys2Proof

open Machine

/-- Settles O15: ADD ends in the range test of the exact sum. -/
theorem addWritesTheExactSumOrOverflows : Obligations.AddWritesTheExactSumOrOverflows := by
  unfold Obligations.AddWritesTheExactSumOrOverflows
  exact fun x a s h => ⟨decode_encode_of_address (i := .add x) h, exec_finishArithmetic (exec_add h s)⟩

/-- Settles O16: SUBTRACT ends in the range test of the exact difference. -/
theorem subtractWritesTheExactDifferenceOrOverflows :
    Obligations.SubtractWritesTheExactDifferenceOrOverflows := by
  unfold Obligations.SubtractWritesTheExactDifferenceOrOverflows
  exact fun x a s h =>
    ⟨decode_encode_of_address (i := .subtract x) h, exec_finishArithmetic (exec_subtract h s)⟩

/-- Settles O17: MULTIPLY ends in the range test of the exact product. -/
theorem multiplyWritesTheExactProductOrOverflows :
    Obligations.MultiplyWritesTheExactProductOrOverflows := by
  unfold Obligations.MultiplyWritesTheExactProductOrOverflows
  exact fun x a s h =>
    ⟨decode_encode_of_address (i := .multiply x) h, exec_finishArithmetic (exec_multiply h s)⟩

/-- Settles O18: DIVIDE by a divisor that is not 0 ends in the advance, without a range test. -/
theorem divideWritesTheQuotient : Obligations.DivideWritesTheQuotient := by
  unfold Obligations.DivideWritesTheQuotient
  exact fun x a s h =>
    ⟨decode_encode_of_address (i := .divide x) h, fun hd => exec_advance_setAcc (exec_divide h hd)⟩

/-- Settles O19: the quotient's sign and magnitude, and the remainder's. -/
theorem quotientIsRoundedTowardZero : Obligations.QuotientIsRoundedTowardZero := by
  unfold Obligations.QuotientIsRoundedTowardZero
  intro n d hd
  refine ⟨quotient_eq_sign_mul n d, ?sign, ?magnitude, fun hn => quotient_inRange hn d⟩
  case sign => exact sub_mul_quotient n d ▸ tmod_eq_zero_or_sign n d
  case magnitude =>
    rw [sub_mul_quotient, Int.natAbs_tmod]
    exact Nat.mod_lt _ (Int.natAbs_pos.mpr hd)

end Sys2Proof

/-! READ and HALT (spec/41_io.md R90, spec/44_control.md R133): READ waits or takes the next Word of INPUT;
HALT ends the run. -/

namespace Sys2Proof.Machine

theorem exec_read_waits {x : Int} {a : Address} {s : State} (h : addressOf x = some a)
    (hin : s.input = []) : exec (.read x) s = .next s :=
  (withAddress_some h s _).trans (by rw [takeInput, hin])

theorem exec_read_takes {x v : Int} {rest : List Int} {a : Address} {s : State}
    (h : addressOf x = some a) (hin : s.input = v :: rest) :
    exec (.read x) s = .next (advance (writeMem a v { s with input := rest })) :=
  (withAddress_some h s _).trans (by rw [takeInput, hin])

/-- The advance after a write keeps INPUT, ACC and OUT, whatever it does to IP and STATUS. -/
theorem advance_writeMem_frame (a : Address) (v : Int) (s : State) :
    (advance (writeMem a v s)).input = s.input ∧ (advance (writeMem a v s)).acc = s.acc ∧
      (advance (writeMem a v s)).out = s.out := by
  simp only [advance_input, advance_acc, advance_out, writeMem_input, writeMem_acc, writeMem_out,
    and_self]

theorem exec_halt {x : Int} {a : Address} (h : addressOf x = some a) (s : State) :
    exec (.halt x) s = .next (stopRun s) := withAddress_some h s _

end Sys2Proof.Machine

namespace Sys2Proof

open Machine

/-- Settles O11: with a Word in INPUT, READ answers the advance from the state that has taken it and
written it, which has kept the rest. -/
theorem readStoresTheNextInputWord : Obligations.ReadStoresTheNextInputWord := by
  unfold Obligations.ReadStoresTheNextInputWord
  intro x a s h
  refine ⟨decode_encode_of_address (i := .read x) h, exec_read_waits h, fun v rest hin => ?takes⟩
  case takes =>
    obtain ⟨hinput, hacc, hout⟩ := advance_writeMem_frame a v { s with input := rest }
    exact ⟨_, exec_read_takes h hin, fun b => read_advance_writeMem a b v _, hinput, hacc, hout,
      fun n hn => advance_ip_status_below hn, fun hlast => advance_ip_status_last hlast⟩

/-- Settles O24: HALT is the sequencer's stop, from every state. -/
theorem haltChangesStatusAlone : Obligations.HaltChangesStatusAlone := by
  unfold Obligations.HaltChangesStatusAlone
  exact fun x a s h => ⟨decode_encode_of_address (i := .halt x) h, exec_halt h s⟩

end Sys2Proof

/-! The step and the runs (spec/40_cycle.md R71, R77, R80): it runs the decoded instruction, and a state
that rests or waits is the end of every run from it. -/

namespace Sys2Proof.Machine

theorem run_terminal {s : State} (hs : s.terminal) (k : Nat) : core.run k s = .next s :=
  run_of_fixed (step_terminal hs) k

theorem raise_terminal (k : Fault) (s : State) : (raise k s).terminal := Status.noConfusion

/-- A Word written into the next location is what the cycle after the advance fetches
(spec/20_memory.md R41). -/
theorem advance_writeMem_next {a : Address} {v : Int} {s : State} (h : a.val = s.ip.val + 1) :
    (advance (writeMem a v s)).status = s.status ∧ fetch (advance (writeMem a v s)) = v := by
  rw [advance_to (s := writeMem a v s) h]
  exact ⟨rfl, s.mem.read_write_same a v⟩

/-- The table's word stands at IP of the state that `withFetchWord` gives. -/
theorem fetch_withFetchWord (s : State) (nbits w : Nat) :
    fetch (s.withFetchWord nbits w) = (wordOfTableBits nbits w).getD 0 :=
  s.mem.read_write_same s.ip _

theorem withFetchWord_status (s : State) (nbits w : Nat) :
    (s.withFetchWord nbits w).status = .running := rfl

end Sys2Proof.Machine

namespace Sys2Proof

open Machine

/-- Settles O26: the decoded instruction runs, and a legal instruction is decoded from its encoded
word. -/
theorem stepRunsTheDecodedInstruction : Obligations.StepRunsTheDecodedInstruction := by
  unfold Obligations.StepRunsTheDecodedInstruction
  intro s i hs
  refine ⟨step_ok hs, fun hwf hw => ?encoded⟩
  case encoded =>
    obtain ⟨a, ha⟩ := address_of_wellFormed hwf
    exact step_of_encoded hs ha hw

/-- Settles O28: a terminal state is a fixed point of the step. -/
theorem terminalStatusIsFinal : Obligations.TerminalStatusIsFinal := by
  unfold Obligations.TerminalStatusIsFinal
  exact fun s k hs => run_terminal hs k

/-- Settles O38: taking a fault is an update of STATUS, and leads to a terminal state. -/
theorem takingAFaultWritesStatusAloneAndIsFinal :
    Obligations.TakingAFaultWritesStatusAloneAndIsFinal := by
  unfold Obligations.TakingAFaultWritesStatusAloneAndIsFinal
  exact fun k s => ⟨rfl, fun n => run_terminal (raise_terminal k s) n⟩

/-- Settles O42: STORE, or READ with input, writes the Word into the location to which its advance
leads. -/
theorem storedWordIsTheNextInstruction : Obligations.StoredWordIsTheNextInstruction := by
  unfold Obligations.StoredWordIsTheNextInstruction
  intro x a s hs h hnext
  refine ⟨fun hw => ?store, fun v rest hin hw => ?read⟩
  case store =>
    obtain ⟨hstatus, hfetch⟩ := advance_writeMem_next (v := s.acc) hnext
    have hstep := (step_of_encoded (i := .store x) hs h hw).trans (exec_store h s)
    exact ⟨_, hstep, hstatus.trans hs, hfetch⟩
  case read =>
    obtain ⟨hstatus, hfetch⟩ := advance_writeMem_next (v := v) (s := { s with input := rest }) hnext
    have hstep := (step_of_encoded (i := .read x) hs h hw).trans (exec_read_takes h hin)
    exact ⟨_, hstep, hstatus.trans hs, hfetch⟩

/-- Settles O48: the word at IP is the table's, which the decoder accepts as the instruction. -/
theorem withFetchWordMakesItTheNextInstruction :
    Obligations.WithFetchWordMakesItTheNextInstruction := by
  unfold Obligations.WithFetchWordMakesItTheNextInstruction
  intro s nbits w i h
  obtain ⟨v, hv, hdecode⟩ := decodeTableWord_eq_some h
  refine step_ok (withFetchWord_status s nbits w) ?_
  rw [fetch_withFetchWord, hv, Option.getD_some, hdecode]

end Sys2Proof

/-! Blocking and the environment (spec/40_cycle.md R80, spec/41_io.md R92, spec/70_reset_and_hazards.md
R180): when a READ waits, when it goes on, and what the environment cannot do meanwhile. -/

namespace Sys2Proof.Machine

/-- A core whose decoded instruction is a READ is at a READ. -/
theorem atRead_of_decode {s : State} {x : Int} (h : decode (fetch s) = .ok (.read x)) :
    s.atRead = true := by
  rw [State.atRead, h]

/-- A READ without input is blocked, and its step answers the same state (spec/40_cycle.md R80). -/
theorem blocked_of_read {s : State} {x : Int} {a : Address} (hs : s.status = .running)
    (h : addressOf x = some a) (hw : s.mem.read s.ip = 1000 + x) (hin : s.input = []) :
    s.blocked ∧ step s = .next s := by
  have hdecode : decode (fetch s) = .ok (.read x) :=
    (congrArg decode hw).trans (decode_encode_of_address (i := .read x) h)
  exact ⟨⟨hs, atRead_of_decode hdecode, hin⟩, (step_ok hs hdecode).trans (exec_read_waits h hin)⟩

theorem supply_inRange {v : Int} (hv : InRange v) (s : State) :
    supply v s = some { s with input := s.input ++ [v] } := if_pos hv

/-- A running core is not reset (spec/70_reset_and_hazards.md R180). -/
theorem start_of_running {s : State} (hs : s.status = .running) (input : List Int) :
    start input s = none := if_neg fun h => h.1 hs

/-- A running core's memory is not loaded (spec/10_state.md R23). -/
theorem loadWord_of_running {s : State} (hs : s.status = .running) (a : Address) (v : Int) :
    loadWord a v s = none := if_neg fun h => h.1 hs

end Sys2Proof.Machine

namespace Sys2Proof

open Machine

/-- Settles O39: the blocked state is a fixed point of the step; once the Word is supplied the same READ
takes it. -/
theorem blockedReadResumesWhenAWordIsSupplied :
    Obligations.BlockedReadResumesWhenAWordIsSupplied := by
  unfold Obligations.BlockedReadResumesWhenAWordIsSupplied
  intro x v a s hs hw h hin hv
  obtain ⟨hblocked, hwaits⟩ := blocked_of_read hs h hw hin
  have hsupplied : ({ s with input := s.input ++ [v] } : State).input = v :: [] := by rw [hin]; rfl
  have hstep := (step_of_encoded (s := { s with input := s.input ++ [v] }) (i := .read x) hs h hw).trans
    (exec_read_takes h hsupplied)
  obtain ⟨hinput, hacc, hout⟩ := advance_writeMem_frame a v { s with input := [] }
  refine ⟨hblocked, run_of_fixed hwaits, _, _, supply_inRange hv s, hstep,
    fun b => read_advance_writeMem a b v _, hinput, hacc, hout, fun n hn => ?below⟩
  case below =>
    obtain ⟨hip, hstatus⟩ := advance_ip_status_below (s := writeMem a v { s with input := [] }) hn
    exact ⟨hip, hstatus.trans hs⟩

/-- Settles O44: each element of the reset state, and its empty memory read at any address. -/
theorem resetStateHoldsTheResetValues : Obligations.ResetStateHoldsTheResetValues := by
  unfold Obligations.ResetStateHoldsTheResetValues
  exact ⟨rfl, rfl, rfl, rfl, rfl, fun _ => rfl⟩

/-- Settles O45: start and the load port ask for a STATUS that is not Running. -/
theorem environmentCannotTouchARunningCore : Obligations.EnvironmentCannotTouchARunningCore := by
  unfold Obligations.EnvironmentCannotTouchARunningCore
  intro s input a v
  exact ⟨fun hs => ⟨start_of_running hs input, loadWord_of_running hs a v⟩,
    fun hs hinput hv => ⟨start_of_terminal hs hinput, loadWord_of_terminal hs hv⟩⟩

end Sys2Proof

/-! What a step may change (spec/40_cycle.md R73, R79): the one action of the sequencer, and the elements
that an instruction writes, each by its own opcodes. -/

namespace Sys2Proof.Machine

/-- The ways in which an instruction with opcode `c` and the address `a` as its operand ends
(spec/40_cycle.md R73, R75), a constructor for each; `advances` says nothing of what was written before
the advance but that it was neither IP nor STATUS. -/
inductive Sequenced (s : State) (a : Address) (c : Int) : State → Prop where
  | waits (hc : c = 10) : Sequenced s a c s
  | advances {u} (hip : u.ip = s.ip) (hstatus : u.status = s.status) (hc : c ∉ [40, 43]) :
      Sequenced s a c (advance u)
  | jumps (hc : c ∈ [40, 41, 42]) : Sequenced s a c (jump a s)
  | stops (hc : c = 43) : Sequenced s a c (stopRun s)
  | raises {k} (hk : k ≠ .outOfRangeAddress) (hc : c ≠ 43) : Sequenced s a c (raise k s)

theorem Effect.sequenced {s t : State} {a : Address} {i : Instr} (h : Effect s a i t) :
    Sequenced s a i.opcode t := by
  cases h with
  | readTakes | write | load | store | add | subtract | divide | multiply | branchnegNotTaken
  | branchzeroNotTaken => exact .advances rfl rfl (by simp [Instr.opcode])
  | readWaits => exact .waits rfl
  | branch | branchnegTaken | branchzeroTaken => exact .jumps (by simp [Instr.opcode])
  | halt => exact .stops rfl
  | addOverflow | subtractOverflow | multiplyOverflow | divideByZero =>
    exact .raises Fault.noConfusion (by simp [Instr.opcode])

/-- The three actions on IP: held, advanced by 1, or the branch's target (spec/40_cycle.md R73). -/
theorem Sequenced.ip_cases {s t : State} {a : Address} {c : Int} (h : Sequenced s a c t) :
    t.ip = s.ip ∨ (t.ip.val = s.ip.val + 1 ∧ c ∉ [40, 43]) ∨ (c ∈ [40, 41, 42] ∧ t.ip = a) := by
  cases h with
  | waits | stops | raises => exact .inl rfl
  | jumps hc => exact .inr (.inr ⟨hc, rfl⟩)
  | @advances u hip _ hc =>
    obtain ⟨n, hn, hadvance⟩ | ⟨-, hadvance⟩ := advance_cases u
    · rw [hadvance]
      exact .inr (.inl ⟨hip ▸ hn, hc⟩)
    · rw [hadvance]
      exact .inl hip

/-- An instruction ends the run successfully only as HALT does (spec/44_control.md R133). -/
theorem Sequenced.halted {s t : State} {a : Address} {c : Int} (h : Sequenced s a c t)
    (hs : s.status = .running) (ht : t.status = .halted) : c = 43 ∧ t = stopRun s := by
  cases h with
  | waits | jumps => cases hs.symm.trans ht
  | raises => cases ht
  | stops hc => exact ⟨hc, rfl⟩
  | @advances u _ hstatus _ =>
    obtain ⟨n, -, hadvance⟩ | ⟨-, hadvance⟩ := advance_cases u
    · rw [hadvance] at ht
      cases (hstatus.trans hs).symm.trans ht
    · rw [hadvance] at ht
      cases ht

/-- Opcode 43 ends the run successfully. -/
theorem Sequenced.status_of_halt {s t : State} {a : Address} (h : Sequenced s a 43 t) :
    t.status = .halted := by
  cases h with
  | waits hc => exact absurd hc (by decide)
  | advances _ _ hc => exact absurd (by decide) hc
  | jumps hc => exact absurd hc (by decide)
  | stops => rfl
  | raises _ hc => exact absurd rfl hc

/-- An instruction's fault is taken with nothing written, or is that of the advance at 99
(spec/60_exceptions.md R156). -/
theorem Sequenced.fault {s t : State} {a : Address} {c : Int} {k : Fault} (h : Sequenced s a c t)
    (hs : s.status = .running) (ht : t.status = .fault k) :
    (k ≠ .outOfRangeAddress ∧ t = raise k s) ∨
      (k = .outOfRangeAddress ∧ s.ip.val = 99 ∧ t.ip = s.ip ∧ c ∉ [40, 43]) := by
  cases h with
  | waits | jumps => cases hs.symm.trans ht
  | stops => cases ht
  | raises hk => cases ht; exact .inl ⟨hk, rfl⟩
  | @advances u hip hstatus hc =>
    obtain ⟨n, -, hadvance⟩ | ⟨hlast, hadvance⟩ := advance_cases u
    · rw [hadvance] at ht
      cases (hstatus.trans hs).symm.trans ht
    · rw [hadvance] at ht ⊢
      cases ht
      exact .inr ⟨rfl, hip ▸ hlast, hip, hc⟩

/-- All that the step of a running core can do, in terms of the fetched word's opcode. -/
theorem step_running_cases {s t : State} (hs : s.status = .running) (h : step s = .next t) :
    (opcodeOf (fetch s) ∉ Config.opset ∧ t = raise .invalidOpcode s) ∨
      ∃ i a, decode (fetch s) = .ok i ∧ addressOf i.operand = some a ∧ Effect s a i t ∧
        i.opcode = opcodeOf (fetch s) ∧ (a.val : Int) = operandOf (fetch s) := by
  obtain ⟨hterminal, -⟩ | ⟨-, herror, ht⟩ | ⟨i, a, -, hi, ha, heffect⟩ := step_cases h
  · exact absurd hs hterminal
  · exact .inl ⟨decode_error_iff.mp herror, ht⟩
  · obtain ⟨hop, hx⟩ := decode_ok hi
    exact .inr ⟨i, a, hi, ha, heffect, hop, hx ▸ addressOf_eq_some.mp ha⟩

/-! Which instructions write which element. -/

theorem Effect.mem_changed {s t : State} {a : Address} {i : Instr} (h : Effect s a i t)
    (hne : t.mem ≠ s.mem) : i.opcode ∈ [10, 21] ∧ ∃ v, t.mem = s.mem.write a v := by
  cases h with
  | readTakes | store => exact ⟨by simp [Instr.opcode], _, advance_mem _⟩
  | _ => exact absurd (by simp) hne

theorem Effect.acc_changed {s t : State} {a : Address} {i : Instr} (h : Effect s a i t)
    (hne : t.acc ≠ s.acc) : i.opcode ∈ [20, 30, 31, 32, 33] := by
  cases h with
  | load | add | subtract | divide | multiply => simp [Instr.opcode]
  | _ => exact absurd (by simp) hne

theorem Effect.out_changed {s t : State} {a : Address} {i : Instr} (h : Effect s a i t)
    (hne : t.out ≠ s.out) : i.opcode = 11 ∧ ∃ v, t.out = s.out ++ [v] := by
  cases h with
  | write => exact ⟨rfl, _, advance_out _⟩
  | _ => exact absurd (by simp) hne

theorem Effect.input_changed {s t : State} {a : Address} {i : Instr} (h : Effect s a i t)
    (hne : t.input ≠ s.input) : i.opcode = 10 ∧ ∃ v, s.input = v :: t.input := by
  cases h with
  | readTakes hin => exact ⟨rfl, _, by rw [advance_input, hin]⟩
  | _ => exact absurd (by simp) hne

end Sys2Proof.Machine

namespace Sys2Proof

open Machine

/-- Settles O31: the step holds IP unless it runs an instruction, whose sequencer action decides. -/
theorem ipIsHeldAdvancedOrTheBranchTarget : Obligations.IpIsHeldAdvancedOrTheBranchTarget := by
  unfold Obligations.IpIsHeldAdvancedOrTheBranchTarget
  intro s t h
  by_cases hs : s.status = .running
  case neg =>
    rw [step_terminal hs] at h
    cases h
    exact .inl rfl
  case pos =>
    obtain ⟨-, rfl⟩ | ⟨i, a, -, -, heffect, hop, ha⟩ := step_running_cases hs h
    · exact .inl rfl
    · obtain hheld | ⟨hnext, hc⟩ | ⟨hc, rfl⟩ := heffect.sequenced.ip_cases
      · exact .inl hheld
      · exact .inr (.inl ⟨hnext, hop ▸ hc⟩)
      · exact .inr (.inr ⟨hop ▸ hc, ha⟩)

/-- Settles O30: each element has the opcodes that write it; those of MEM, ACC and OUT are distinct, so
that no two of the three change. -/
theorem cycleChangesAtMostOneOfMemoryAccAndOut :
    Obligations.CycleChangesAtMostOneOfMemoryAccAndOut := by
  unfold Obligations.CycleChangesAtMostOneOfMemoryAccAndOut
  intro s t hs h
  obtain ⟨-, rfl⟩ | ⟨i, a, -, -, heffect, hop, ha⟩ := step_running_cases hs h
  case inl => simp
  case inr =>
    have hop' : i.opcode = opcodeOf (s.mem.read s.ip) := hop
    have hmem := heffect.mem_changed
    have hacc := heffect.acc_changed
    have hout := heffect.out_changed
    have hinput := heffect.input_changed
    rw [hop'] at hmem hacc hout hinput
    refine ⟨fun b hb => ?word, fun hne => (hmem hne).1, hacc, hout, hinput, ?memAcc, ?memOut, ?accOut⟩
    case word =>
      obtain ⟨hc, v, hv⟩ := hmem fun heq => hb (by rw [heq])
      rw [hv, Memory.read_write] at hb
      have hba : b = a := by
        by_contra hne
        exact hb (if_neg hne)
      exact ⟨hc, hba ▸ ha⟩
    case memAcc =>
      rintro ⟨hm, hx⟩
      have hdisjoint : ∀ c ∈ [10, 21], c ∉ ([20, 30, 31, 32, 33] : List Int) := by decide
      exact hdisjoint _ (hmem hm).1 (hacc hx)
    case memOut =>
      rintro ⟨hm, hx⟩
      have hdisjoint : (11 : Int) ∉ [10, 21] := by decide
      exact hdisjoint ((hout hx).1 ▸ (hmem hm).1)
    case accOut =>
      rintro ⟨hx, ho⟩
      have hdisjoint : (11 : Int) ∉ [20, 30, 31, 32, 33] := by decide
      exact hdisjoint ((hout ho).1 ▸ hacc hx)

/-- Settles O37: HALT alone stops the sequencer; an illegal word, whose opcode is not HALT's, faults. -/
theorem onlyHaltEndsARunSuccessfully : Obligations.OnlyHaltEndsARunSuccessfully := by
  unfold Obligations.OnlyHaltEndsARunSuccessfully
  intro s t hs h
  obtain ⟨hmem, rfl⟩ | ⟨i, a, -, -, heffect, hop, -⟩ := step_running_cases hs h
  case inl =>
    have hnot : (raise .invalidOpcode s).status ≠ .halted := Status.noConfusion
    refine ⟨⟨fun ht => absurd ht hnot, fun hc => ?_⟩, fun ht => absurd ht hnot⟩
    have hc' : opcodeOf (fetch s) = 43 := hc
    exact absurd (hc' ▸ by decide) hmem
  case inr =>
    have hsequenced : Sequenced s a (opcodeOf (fetch s)) t := hop ▸ heffect.sequenced
    exact ⟨⟨fun ht => (hsequenced.halted hs ht).1, fun hc => (hc ▸ hsequenced).status_of_halt⟩,
      fun ht => (hsequenced.halted hs ht).2⟩

/-- Settles O36: of all the causes of a fault, three are causes of `Overflow`, each of its own opcode. -/
theorem overflowComesOnlyFromAnOutOfRangeResult :
    Obligations.OverflowComesOnlyFromAnOutOfRangeResult := by
  unfold Obligations.OverflowComesOnlyFromAnOutOfRangeResult
  intro s t hs h hk
  obtain ⟨hinvalid, -⟩ | ⟨i, a, hi, ha, hcause⟩ := step_fault_cases hs h hk
  · cases hinvalid
  · obtain ⟨hop, hx⟩ := decode_ok hi
    refine ⟨a, (addressOf_eq_some.mp ha).trans hx, ?_⟩
    cases hcause with
    | sum hr => exact .inl ⟨hop.symm, hr⟩
    | difference hr => exact .inr (.inl ⟨hop.symm, hr⟩)
    | product hr => exact .inr (.inr ⟨hop.symm, hr⟩)

end Sys2Proof

/-! An effect is what `exec` answers; so an instruction runs alike in states that differ only in what it
does not look at: its own address below 99 (spec/60_exceptions.md R156), the Words emitted before
(spec/10_state.md R21), the Words that follow in INPUT (spec/41_io.md R92). -/

namespace Sys2Proof.Machine

/-- The converse of `exec_effect`: every effect is the answer of `exec`. -/
theorem exec_of_effect {s t : State} {i : Instr} {a : Address} (ha : addressOf i.operand = some a)
    (h : Effect s a i t) : exec i s = .next t := by
  cases h with
  | readTakes hin => exact exec_read_takes ha hin
  | readWaits hin => exact exec_read_waits ha hin
  | write => exact exec_write ha s
  | load => exact exec_load ha s
  | store => exact exec_store ha s
  | add hr => exact (exec_add ha s).trans (congrArg _ (finishArithmetic_inRange hr s))
  | addOverflow hr => exact (exec_add ha s).trans (congrArg _ (finishArithmetic_overflow hr s))
  | subtract hr => exact (exec_subtract ha s).trans (congrArg _ (finishArithmetic_inRange hr s))
  | subtractOverflow hr =>
    exact (exec_subtract ha s).trans (congrArg _ (finishArithmetic_overflow hr s))
  | divide hd => exact exec_divide ha hd
  | divideByZero hzero => exact exec_divide_zero ha hzero
  | multiply hr => exact (exec_multiply ha s).trans (congrArg _ (finishArithmetic_inRange hr s))
  | multiplyOverflow hr =>
    exact (exec_multiply ha s).trans (congrArg _ (finishArithmetic_overflow hr s))
  | branch => exact exec_branch ha s
  | branchnegTaken hacc => exact exec_branchneg_taken ha hacc
  | branchnegNotTaken hacc => exact exec_branchneg_not_taken ha (Int.not_lt.mp hacc)
  | branchzeroTaken hacc => exact exec_branchzero_taken ha hacc
  | branchzeroNotTaken hacc => exact exec_branchzero_not_taken ha hacc
  | halt => exact exec_halt ha s

/-- An effect that ends in an advance from the address `m`, in terms of the advance from elsewhere. -/
theorem Effect.of_advance_elsewhere {s u : State} {a m n : Address} {i : Instr}
    (hu : u.status = .running) (hmn : n.val = m.val + 1)
    (h : Effect s a i (advance { u with ip := m })) :
    Effect s a i { advance u with ip := n, status := .running } :=
  advance_elsewhere hu hmn ▸ h

/-- An instruction that faults at its advance has the same effect from any address `m` below 99, where
the advance goes on to `n` (spec/60_exceptions.md R156). -/
theorem Effect.from_below {s t : State} {a m n : Address} {i : Instr} (h : Effect s a i t)
    (hs : s.status = .running) (ht : t.status = .fault .outOfRangeAddress) (hmn : n.val = m.val + 1) :
    Effect { s with ip := m } a i { t with ip := n, status := .running } := by
  cases h with
  | readTakes hin => exact .of_advance_elsewhere hs hmn (.readTakes hin)
  | write => exact .of_advance_elsewhere hs hmn .write
  | load => exact .of_advance_elsewhere hs hmn .load
  | store => exact .of_advance_elsewhere hs hmn .store
  | add hr => exact .of_advance_elsewhere hs hmn (.add hr)
  | subtract hr => exact .of_advance_elsewhere hs hmn (.subtract hr)
  | divide hd => exact .of_advance_elsewhere hs hmn (.divide hd)
  | multiply hr => exact .of_advance_elsewhere hs hmn (.multiply hr)
  | branchnegNotTaken hacc => exact .of_advance_elsewhere hs hmn (.branchnegNotTaken hacc)
  | branchzeroNotTaken hacc => exact .of_advance_elsewhere hs hmn (.branchzeroNotTaken hacc)
  | readWaits | branch | branchnegTaken | branchzeroTaken => cases hs.symm.trans ht
  | halt | addOverflow | subtractOverflow | multiplyOverflow | divideByZero => cases ht

/-- The state with more of what the ports have seen and will see: Words emitted before, and Words that
follow in INPUT. -/
def State.extendPorts (earlier later : List Int) (s : State) : State :=
  { s with out := earlier ++ s.out, input := s.input ++ later }

theorem extendPorts_advance (earlier later : List Int) (s : State) :
    (advance s).extendPorts earlier later = advance (s.extendPorts earlier later) := by
  obtain ⟨n, hn, hadvance⟩ | ⟨hlast, hadvance⟩ := advance_cases s
  · rw [hadvance, advance_to (s := s.extendPorts earlier later) hn]
    rfl
  · rw [hadvance, advance_fault (s := s.extendPorts earlier later) hlast]
    rfl

theorem extendPorts_emit (earlier later : List Int) (v : Int) (s : State) :
    (emit v s).extendPorts earlier later = emit v (s.extendPorts earlier later) := by
  simp only [State.extendPorts, emit, List.append_assoc]

/-- No effect looks at what the ports have seen, or at more of INPUT than its first Word; only a READ
without input would take a Word that follows. -/
theorem Effect.extendPorts {s t : State} {a : Address} {i : Instr} (h : Effect s a i t)
    (earlier later : List Int) (hwait : ∀ x, i = .read x → s.input = [] → later = []) :
    Effect (s.extendPorts earlier later) a i (t.extendPorts earlier later) := by
  cases h with
  | readTakes hin =>
    rw [extendPorts_advance]
    exact .readTakes (by rw [State.extendPorts, hin]; rfl)
  | readWaits hin =>
    exact .readWaits (by simp only [State.extendPorts, hin, hwait _ rfl hin, List.append_nil])
  | write => rw [extendPorts_advance, extendPorts_emit]; exact .write
  | load => rw [extendPorts_advance]; exact .load
  | store => rw [extendPorts_advance]; exact .store
  | add hr => rw [extendPorts_advance]; exact .add hr
  | addOverflow hr => exact .addOverflow hr
  | subtract hr => rw [extendPorts_advance]; exact .subtract hr
  | subtractOverflow hr => exact .subtractOverflow hr
  | divide hd => rw [extendPorts_advance]; exact .divide hd
  | divideByZero hzero => exact .divideByZero hzero
  | multiply hr => rw [extendPorts_advance]; exact .multiply hr
  | multiplyOverflow hr => exact .multiplyOverflow hr
  | branch => exact .branch
  | branchnegTaken hacc => exact .branchnegTaken hacc
  | branchnegNotTaken hacc => rw [extendPorts_advance]; exact .branchnegNotTaken hacc
  | branchzeroTaken hacc => exact .branchzeroTaken hacc
  | branchzeroNotTaken hacc => rw [extendPorts_advance]; exact .branchzeroNotTaken hacc
  | halt => exact .halt

/-- A step does not look at what the ports have seen, and at the Words that follow in INPUT only where it
is blocked. -/
theorem step_extendPorts {s t : State} (h : step s = .next t) (earlier later : List Int)
    (hwait : s.blocked → later = []) :
    step (s.extendPorts earlier later) = .next (t.extendPorts earlier later) := by
  obtain ⟨hterminal, rfl⟩ | ⟨hs, ⟨e, he⟩, rfl⟩ | ⟨i, a, hs, hi, ha, heffect⟩ := step_cases h
  · exact step_terminal hterminal
  · exact step_error (s := s.extendPorts earlier later) hs he
  · have hextended := heffect.extendPorts earlier later fun x hx hin =>
      hwait ⟨hs, atRead_of_decode (hx ▸ hi), hin⟩
    exact (step_ok (s := s.extendPorts earlier later) hs hi).trans (exec_of_effect ha hextended)

end Sys2Proof.Machine

namespace Sys2Proof

open Machine

/-- Settles O35: an instruction's fault is taken with nothing written, or is that of its advance at 99,
which from below 99 would have gone on with the same effect. -/
theorem faultsArePrecise : Obligations.FaultsArePrecise := by
  unfold Obligations.FaultsArePrecise
  intro s t k hs h hk
  obtain ⟨-, rfl⟩ | ⟨i, a, hi, ha, heffect, hop, -⟩ := step_running_cases hs h
  case inl =>
    cases hk
    exact ⟨fun _ => rfl, Fault.noConfusion⟩
  case inr =>
    obtain ⟨hne, ht⟩ | ⟨rfl, hlast, hip, hc⟩ := heffect.sequenced.fault hs hk
    · exact ⟨fun _ => ht, fun heq => absurd heq hne⟩
    · exact ⟨fun hne => absurd rfl hne, fun _ => ⟨hlast, hip, hop ▸ hc, i, hi,
        fun m n hmn => exec_of_effect ha (heffect.from_below hs hk hmn)⟩⟩

/-- Settles O40: the ports extended by the Words emitted before, and by no input. -/
theorem outputIsNeverReadBack : Obligations.OutputIsNeverReadBack := by
  unfold Obligations.OutputIsNeverReadBack
  intro s t earlier h
  have hstep := step_extendPorts h earlier [] fun _ => rfl
  simpa only [State.extendPorts, List.append_nil] using hstep

/-- Settles O41: the ports extended by the Words that follow in INPUT, and by no output. -/
theorem inputIsNeverLookedAtAhead : Obligations.InputIsNeverLookedAtAhead := by
  unfold Obligations.InputIsNeverLookedAtAhead
  intro s t later hblocked h
  exact step_extendPorts h [] later fun hwaits => absurd hwaits hblocked

end Sys2Proof
